-- ==== Sys2Proof/Word.lean ====
section
/-! DEFINITION. The words of the RAW10 core: bytes, pixel words, command and group words, and the legal depth. -/
namespace Sys2Proof

/-- A byte of the packed buffer (R6: BYTE_BITS = 8). -/
abbrev Byte := BitVec 8

/-- A pixel word of PIX or a sample of PLANE: PW = 16 bits (R7, R71). -/
abbrev Pixel := BitVec 16

/-- An operand of a command, and the width of WIDTH and HEIGHT (R6, R72). -/
abbrev Word32 := BitVec 32

/-- The register value of a response (R73). -/
abbrev Word64 := BitVec 64

/-- A command word CMD68, `op[67:64] ++ a[63:32] ++ b[31:0]` (R72). -/
abbrev CmdWord := BitVec 68

/-- A group word GROUP40, `b0 ++ b1 ++ b2 ++ b3 ++ b4` (R70). -/
abbrev GroupWord := BitVec 40

/-- A depth the reducer is defined for: DEPTH_MIN = 1 to DEPTH_MAX = 10 (R6, R112). The proof that the depth is legal
travels with it, so `10 - d` is never evaluated outside the range (R112, U6). -/
abbrev LegalDepth := { d : Nat // 1 ≤ d ∧ d ≤ 10 }

end Sys2Proof
end

