-- ==== Sys2Proof/Config.lean ====
section
/-! DEFINITION. What an implementation fixes (PIXCAP) and the free values of the model. -/
namespace Sys2Proof

/-- The parameters the spec leaves to the implementation. `pixcap` is PIXCAP, the number of pixel words the pixel store
holds; `none` is the unbounded store D12 allows (R7, log 9). -/
structure Config where
  pixcap : Option Nat
  deriving DecidableEq, Repr

/-- PIX has an element at index `i`: `i < PIXCAP`, always true when PIXCAP is unbounded (R96). -/
def Config.holds (c : Config) (i : Nat) : Bool :=
  match c.pixcap with
  | none => true
  | some n => i < n

/-- A plane of `n` samples fits the pixel store: `n <= PIXCAP` (R134). -/
def Config.fits (c : Config) (n : Nat) : Bool :=
  match c.pixcap with
  | none => true
  | some cap => n ≤ cap

/-- FREE VALUE (log 6): the content of a holding register where the spec calls it unspecified (U7). It has no body, so
nothing can be proved of its values; the argument is the counter `State.freeCount`. -/
opaque Config.freeByte : Nat → Byte

end Sys2Proof
end

