-- ==== Sys2Proof/Syntax.lean ====
section
/-! DEFINITION. The syntax: control registers, the nine operations of the opcode table, and the words that carry them. -/
namespace Sys2Proof

/-- The control and status registers by number (R27): WIDTH 0, HEIGHT 1, DEPTH 2, STATUS 3, NGRP 4, the rest reserved. -/
inductive Csr where
  | width
  | height
  | depth
  | status
  | ngrp
  /-- A reserved register number, 5 or above (R80). -/
  | reserved (number : Word32)
  deriving DecidableEq, Repr

/-- The operations: the eight commands of R76 and the data format row EXTRACT (R77). Ignored operand bits (R75) are no
part of the syntax. -/
inductive Instr where
  | nop
  | wrcsr (reg : Csr) (value : Word32)
  | rdcsr (reg : Csr)
  | start
  | push (byte : Byte)
  | endReq
  | rdpix (row col : Word32)
  | clear
  | extract (b0 b1 b2 b3 b4 : Byte)
  deriving DecidableEq, Repr

/-- An encoded operation: a word of the command format CMD68 or of the data format GROUP40 (R70, R72). -/
inductive Raw where
  | command (w : CmdWord)
  | group (g : GroupWord)
  deriving DecidableEq, Repr

end Sys2Proof
end

