-- ==== Sys2Proof/WellFormed.lean ====
section
/-! DEFINITION. Well-formed operations: a reserved register number is one the spec reserves. Every other operand is legal
at every value of its width (R28, R29, R75, R79). -/
namespace Sys2Proof

/-- Register numbers 0 to 4 have names of their own; only 5 and above are reserved (R27, R80). -/
def Csr.wellFormed : Csr → Bool
  | .width => true
  | .height => true
  | .depth => true
  | .status => true
  | .ngrp => true
  | .reserved n => 5 ≤ n.toNat

def Instr.wellFormed : Instr → Bool
  | .nop => true
  | .wrcsr r _ => r.wellFormed
  | .rdcsr r => r.wellFormed
  | .start => true
  | .push _ => true
  | .endReq => true
  | .rdpix _ _ => true
  | .clear => true
  | .extract _ _ _ _ _ => true

abbrev Csr.WellFormed (r : Csr) : Prop := r.wellFormed = true

abbrev Instr.WellFormed (i : Instr) : Prop := i.wellFormed = true

end Sys2Proof
end

