-- ==== Sys2Proof/Decode.lean ====
section
/-! DEFINITION. The decoder of both formats, total on every word, the encoder written from the same tables, and the
reading of a word numbered as spec/opcode_table.json numbers it. -/
namespace Sys2Proof

/-- Why a word is refused by the decoder: only a reserved operation code (R78); every group word is legal (R79). -/
inductive DecodeError where
  | reservedOp (op : BitVec 4)
  deriving DecidableEq, Repr

/-- `op`, bits 67:64 (R72). -/
def opField (w : CmdWord) : BitVec 4 := w.extractLsb' 64 4

/-- `a`, bits 63:32 (R72). -/
def aField (w : CmdWord) : Word32 := w.extractLsb' 32 32

/-- `b`, bits 31:0 (R72). -/
def bField (w : CmdWord) : Word32 := w.extractLsb' 0 32

/-- The register a number selects (R27, R80). -/
def Csr.ofNumber (n : Word32) : Csr :=
  match n.toNat with
  | 0 => .width
  | 1 => .height
  | 2 => .depth
  | 3 => .status
  | 4 => .ngrp
  | _ => .reserved n

/-- The number of a register (R27). -/
def Csr.number : Csr → Word32
  | .width => 0
  | .height => 1
  | .depth => 2
  | .status => 3
  | .ngrp => 4
  | .reserved n => n

/-- The operation map (R76): `op` alone selects, unused operand bits are ignored (R75), codes 8 to 15 are refused (R78). -/
def decodeCommand (w : CmdWord) : Except DecodeError Instr :=
  match (opField w).toNat with
  | 0 => .ok .nop
  | 1 => .ok (.wrcsr (Csr.ofNumber (aField w)) (bField w))
  | 2 => .ok (.rdcsr (Csr.ofNumber (aField w)))
  | 3 => .ok .start
  | 4 => .ok (.push ((bField w).extractLsb' 0 8))
  | 5 => .ok .endReq
  | 6 => .ok (.rdpix (aField w) (bField w))
  | 7 => .ok .clear
  | _ => .error (.reservedOp (opField w))

/-- The five bytes of a group word, first byte in the most significant place (R70). -/
def decodeGroup (g : GroupWord) : Instr :=
  .extract (g.extractLsb' 32 8) (g.extractLsb' 24 8) (g.extractLsb' 16 8) (g.extractLsb' 8 8) (g.extractLsb' 0 8)

def decode : Raw → Except DecodeError Instr
  | .command w => decodeCommand w
  | .group g => .ok (decodeGroup g)

/-- `cmd = op ++ a ++ b` (R72). -/
def commandWord (op : BitVec 4) (a b : Word32) : CmdWord := op ++ a ++ b

/-- `G = b0 ++ b1 ++ b2 ++ b3 ++ b4` (R70). -/
def groupWord (b0 b1 b2 b3 b4 : Byte) : GroupWord := b0 ++ b1 ++ b2 ++ b3 ++ b4

/-- The canonical encoding, every ignored bit 0 (R75, R76). -/
def encode : Instr → Raw
  | .nop => .command (commandWord 0 0 0)
  | .wrcsr r v => .command (commandWord 1 r.number v)
  | .rdcsr r => .command (commandWord 2 r.number 0)
  | .start => .command (commandWord 3 0 0)
  | .push byte => .command (commandWord 4 0 (byte.setWidth 32))
  | .endReq => .command (commandWord 5 0 0)
  | .rdpix row col => .command (commandWord 6 row col)
  | .clear => .command (commandWord 7 0 0)
  | .extract b0 b1 b2 b3 b4 => .group (groupWord b0 b1 b2 b3 b4)

/-- The encoded operation a word of the opcode table stands for (log 16): the table's only 40-bit format is GROUP40, and
every other row is a CMD68 word, whose bits above 67 do not exist. -/
def tableRaw (nbits w : Nat) : Raw :=
  if nbits = 40 then .group (BitVec.ofNat 40 w) else .command (BitVec.ofNat 68 w)

/-- The operation the decoder reads from a word numbered as spec/opcode_table.json numbers it; none where the decoder
refuses it or the word has a bit its format does not have. -/
def decodeTableWord (nbits w : Nat) : Option Instr :=
  if w < (if nbits = 40 then 2 ^ 40 else 2 ^ 68) then (decode (tableRaw nbits w)).toOption else none

end Sys2Proof
end

