-- ==== Sys2Proof/Machine/State.lean ====
section
/-! DEFINITION. The machine's state as plain data, its value at reset, and the ways a step can stop. -/
namespace Sys2Proof.Machine

/-- The state of the request (R24). -/
inductive Fsm where
  | idle
  | run
  | done
  | error
  deriving DecidableEq, Repr

/-- The errors of a request (R150). `unsupportedBayerOrder` keeps its reserved code and is never raised (R153, log 15). -/
inductive RequestError where
  | invalidBufferLength
  | shapeMismatch
  | unsupportedBayerOrder
  | depthOutOfRange
  deriving DecidableEq, Repr

/-- The group holding registers `H[0..3]` (R20). -/
structure Hold where
  b0 : Byte
  b1 : Byte
  b2 : Byte
  b3 : Byte
  deriving DecidableEq, Repr

/-- The four pixel words of one group, lanes 0 to 3 (R90, R91). -/
structure Quad where
  p0 : Pixel
  p1 : Pixel
  p2 : Pixel
  p3 : Pixel
  deriving DecidableEq, Repr

/-- A response RSP65 (R73). -/
structure Response where
  acc : Bool
  data : Word64
  deriving DecidableEq, Repr

/-- The plane the reference functions return: `height` rows of `width` samples (R12, R111). -/
structure PixelPlane where
  height : Nat
  width : Nat
  rows : List (List Pixel)
  deriving DecidableEq, Repr

/-- A data space addressed by element index (R32): index and word pairs with strictly rising indices. An index that is
not listed holds no value (U7, log 7, log 11). -/
abbrev Memory := List (Nat × Pixel)

/-- What the host presents to the core next (R19, R72, R180, log 1, log 2, log 4): an encoded operation or a reset. -/
inductive Input where
  | word (r : Raw)
  | reset
  deriving DecidableEq, Repr

/-- Reasons the machine stops with a fault. Both are SAFE: they stand for reads of storage that holds no value (U7), which
no run from reset reaches. -/
inductive Fault where
  /-- Raised by END when it would read an element of PIX that this request has not written (R33). Safe: no run reaches it. -/
  | unwrittenPixel
  /-- Raised by RDPIX in DONE when the sample inside the plane does not exist (R34). Safe: no run reaches it. -/
  | missingSample
  deriving DecidableEq, Repr

/-- Reasons the model gives an operation no meaning. -/
inductive Refusal where
  /-- Raised by an arm of `exec` whose instruction has no meaning yet; no arm raises it. Safe. -/
  | notModelled (mnemonic : String)
  deriving DecidableEq, Repr

/-- All the state of 10_state.md, the response port, and the host's inputs still to come. -/
structure State where
  /-- FSM (R24). -/
  fsm : Fsm
  /-- ERR, `none` for code 0 (R26, R30). -/
  err : Option RequestError
  /-- PHASE (R23). -/
  phase : BitVec 3
  /-- NGRP (R25). -/
  ngrp : Word64
  /-- WIDTH (R28). -/
  width : Word32
  /-- HEIGHT (R28). -/
  height : Word32
  /-- DEPTH (R29). -/
  depth : BitVec 8
  /-- H[0..3] (R20). -/
  h : Hold
  /-- PIX (R33). -/
  pix : Memory
  /-- PLANE, `none` where it does not exist (R34). -/
  plane : Option Memory
  /-- PIXCAP (R7, log 9); no step changes it. -/
  cfg : Config
  /-- The host's commands and resets still to come, the next one first (log 1). -/
  input : List Input
  /-- The response to the last command (R73), `none` where none has been given since reset (log 3). -/
  rsp : Option Response
  /-- The result of the last EXTRACT operation (R90, log 4). -/
  lanes : Option Quad
  /-- The model's own counter of free bytes (log 6). -/
  freeCount : Nat
  deriving DecidableEq, Repr

/-- The machine after reset (R36); H by log 5, PIXCAP by log 9, nothing presented and no response by log 1 and log 3. -/
def State.reset : State where
  fsm := .idle
  err := none
  phase := 0#3
  ngrp := 0#64
  width := 0#32
  height := 0#32
  depth := 0#8
  h := ⟨0#8, 0#8, 0#8, 0#8⟩
  pix := []
  plane := none
  cfg := ⟨none⟩
  input := []
  rsp := none
  lanes := none
  freeCount := 0

end Sys2Proof.Machine
end

