-- ==== Sys2Proof/Machine/Flags.lean ====
section
/-! DEFINITION. The status fields and STATUS itself (R24, R30, R151). The core has no arithmetic flags (R26). -/
namespace Sys2Proof.Machine

/-- The code of FSM (R24). -/
def Fsm.code : Fsm → BitVec 2
  | .idle => 0
  | .run => 1
  | .done => 2
  | .error => 3

/-- The code of an error (R151). -/
def RequestError.code : RequestError → BitVec 3
  | .invalidBufferLength => 1
  | .shapeMismatch => 2
  | .unsupportedBayerOrder => 3
  | .depthOutOfRange => 4

/-- The field ERR: 0 for none (R30). -/
def errCode : Option RequestError → BitVec 3
  | none => 0
  | some e => e.code

/-- `STATUS = PHASE ++ 0b0 ++ ERR ++ 0b00 ++ FSM` (R30, R135). -/
def State.status (s : State) : BitVec 11 :=
  s.phase ++ (0 : BitVec 1) ++ errCode s.err ++ (0 : BitVec 2) ++ s.fsm.code

end Sys2Proof.Machine
end

