-- ==== Sys2Proof/Machine/Operands.lean ====
section
/-! DEFINITION. The operand forms: the depth operand, the legal depth, the index of a sample, the holding register a phase
selects. The register number and the byte operand are taken apart in Decode.lean. -/
namespace Sys2Proof.Machine

/-- The value `WRCSR DEPTH` stores: `b[7:0]` (R29, R75). -/
def depthOperand (b : Word32) : BitVec 8 := b.extractLsb' 0 8

/-- The depth as one the reducer is defined for, or none: `0 < target_depth <= 10` (R29, R111). -/
def legalDepth? (d : BitVec 8) : Option LegalDepth :=
  if h : 1 ≤ d.toNat ∧ d.toNat ≤ 10 then some ⟨d.toNat, h⟩ else none

/-- Row-major index of the sample in row `r`, column `c` of a plane `width` samples wide (R54). -/
def sampleIndex (width r c : Nat) : Nat := r * width + c

/-- `WIDTH * HEIGHT`, the exact product (R115). -/
def State.planeSize (s : State) : Nat := s.width.toNat * s.height.toNat

/-- `len(pixels)`, which is `4 * NGRP` without wrap-around (R25, R115). -/
def State.pixelCount (s : State) : Nat := 4 * s.ngrp.toNat

/-- `H[i]` (R20). -/
def Hold.get (h : Hold) : Nat → Byte
  | 0 => h.b0
  | 1 => h.b1
  | 2 => h.b2
  | _ => h.b3

/-- `H[i] <- v` (R20). -/
def Hold.set (h : Hold) (i : Nat) (v : Byte) : Hold :=
  match i with
  | 0 => { h with b0 := v }
  | 1 => { h with b1 := v }
  | 2 => { h with b2 := v }
  | _ => { h with b3 := v }

end Sys2Proof.Machine
end

