-- ==== Sys2Proof/Machine/Ops.lean ====
section
/-! DEFINITION. The shared operations: reading and writing a data space, the two responses, reading and writing a control
register, taking an error, returning from one, and reset. -/
namespace Sys2Proof.Machine

/-- The word at index `i`, or none where nothing has been written (U7). -/
def Memory.read : Memory → Nat → Option Pixel
  | [], _ => none
  | (j, u) :: rest, i => if i = j then some u else Memory.read rest i

/-- Write one word, keeping the indices rising. -/
def Memory.write : Memory → Nat → Pixel → Memory
  | [], i, v => [(i, v)]
  | (j, u) :: rest, i, v =>
    if i < j then (i, v) :: (j, u) :: rest
    else if i = j then (i, v) :: rest
    else (j, u) :: Memory.write rest i v

/-- Every listed index is above `low`, and they rise strictly. -/
def Memory.risesFrom : Option Nat → Memory → Bool
  | _, [] => true
  | none, (j, _) :: rest => Memory.risesFrom (some j) rest
  | some low, (j, _) :: rest => low < j && Memory.risesFrom (some j) rest

/-- The canonical form: strictly rising indices. Nothing else is to be asked, since an index that is not listed holds no
value at all. -/
def Memory.wf (m : Memory) : Bool := Memory.risesFrom none m

/-- Write at `i` where the pixel store has an element `i`: `if i < PIXCAP: PIX[i] <- v` (R96). -/
def Memory.writeWithin (c : Config) (m : Memory) (i : Nat) (v : Pixel) : Memory :=
  if c.holds i then Memory.write m i v else m

/-- `accept(d)`: the response is `acc = 1, data = d` (R11). -/
def State.accept (s : State) (d : Word64) : State := { s with rsp := some ⟨true, d⟩ }

/-- `reject`: the response is `acc = 0, data = 0`, and nothing else changes (R11, R131). -/
def State.reject (s : State) : State := { s with rsp := some ⟨false, 0#64⟩ }

/-- `csr[n]` zero-extended to 64 bits; a reserved number has no register (R27, R135). -/
def State.csrRead (s : State) : Csr → Option Word64
  | .width => some (s.width.setWidth 64)
  | .height => some (s.height.setWidth 64)
  | .depth => some (s.depth.setWidth 64)
  | .status => some (s.status.setWidth 64)
  | .ngrp => some s.ngrp
  | .reserved _ => none

/-- `csr[n] <- v`; STATUS, NGRP and the reserved numbers are not writable (R133). -/
def State.csrWrite (s : State) (r : Csr) (v : Word32) : Option State :=
  match r with
  | .width => some { s with width := v }
  | .height => some { s with height := v }
  | .depth => some { s with depth := depthOperand v }
  | .status => none
  | .ngrp => none
  | .reserved _ => none

/-- The content of H becomes unspecified: four free bytes (U7, log 6). -/
def State.forgetHold (s : State) : State :=
  { s with
    h := ⟨Config.freeByte s.freeCount, Config.freeByte (s.freeCount + 1),
      Config.freeByte (s.freeCount + 2), Config.freeByte (s.freeCount + 3)⟩
    freeCount := s.freeCount + 4 }

/-- Taking an error, inside END (R158): `FSM <- ERROR; ERR <- code; accept(code)`. H and PIX become unspecified (U7). -/
def State.raise (s : State) (e : RequestError) : State :=
  State.accept { s.forgetHold with fsm := .error, err := some e, pix := [] } (e.code.setWidth 64)

/-- Returning from a request or from an error, the effect of CLEAR (R137, R162): back to IDLE with PHASE, NGRP and ERR
zero, the plane gone and PIX unspecified. H becomes unspecified too (U7), except in IDLE, where CLEAR changes nothing. -/
def State.acknowledge (s : State) : State :=
  { (if s.fsm = .idle then s else s.forgetHold) with
    fsm := .idle, err := none, phase := 0#3, ngrp := 0#64, pix := [], plane := none }

/-- The reset event (R180): every piece of state at its value of R36. PIXCAP is a constant of the machine, and what the
host presents next and the counter of free bytes are the model's own: they stay. -/
def State.hardReset (s : State) : State :=
  { State.reset with cfg := s.cfg, input := s.input, freeCount := s.freeCount }

end Sys2Proof.Machine
end

