-- ==== Sys2Proof/Machine/Unpack.lean ====
section
/-! DEFINITION. The Unpacker: the reference functions extract and unpack, and the operations PUSH and EXTRACT. -/
namespace Sys2Proof.Machine

/-- Pixel k of a group: the byte widened to 16 bits and shifted left by two, with the two bits `Lk` of the fifth byte
(R74, R92). -/
def lanePixel (bk b4 : Byte) (k : Nat) : Pixel :=
  (bk.setWidth 16 <<< 2) ||| ((b4 >>> (2 * k)) &&& 3).setWidth 16

/-- `extract(b0, b1, b2, b3, b4)` (R90). -/
def extract (b0 b1 b2 b3 b4 : Byte) : Quad :=
  ⟨lanePixel b0 b4 0, lanePixel b1 b4 1, lanePixel b2 b4 2, lanePixel b3 b4 3⟩

def Quad.toList (q : Quad) : List Pixel := [q.p0, q.p1, q.p2, q.p3]

/-- The pixels of the complete groups of a buffer, groups in input order (R50, R53). -/
def groupPixels : List Byte → List Pixel
  | b0 :: b1 :: b2 :: b3 :: b4 :: rest => (extract b0 b1 b2 b3 b4).toList ++ groupPixels rest
  | _ => []

/-- `unpack(buffer)` (R93): a length that is not a positive multiple of 5 is an error, never a truncation (R98). -/
def unpack (buffer : List Byte) : Except RequestError (List Pixel) :=
  if buffer.length = 0 ∨ buffer.length % 5 ≠ 0 then .error .invalidBufferLength else .ok (groupPixels buffer)

/-- `for k = 0 .. 3: if i + k < PIXCAP: PIX[i + k] <- pk` (R96). -/
def storeQuad (c : Config) (m : Memory) (i : Nat) (q : Quad) : Memory :=
  Memory.writeWithin c (Memory.writeWithin c (Memory.writeWithin c (Memory.writeWithin c m i q.p0)
    (i + 1) q.p1) (i + 2) q.p2) (i + 3) q.p3

/-- `min(n + 1, 2^64 - 1)` (R25, R96). -/
def saturatingSucc (n : Word64) : Word64 := if n = BitVec.allOnes 64 then n else n + 1#64

/-- `PUSH byte` (R96). -/
def execPush (byte : Byte) (s : State) : Host.Outcome State Fault Refusal :=
  if s.fsm ≠ .run then .next s.reject
  else if s.phase.toNat < 4 then
    .next (State.accept { s with h := s.h.set s.phase.toNat byte, phase := s.phase + 1#3 } 0#64)
  else
    .next (State.accept
      { s with
        pix := storeQuad s.cfg s.pix s.pixelCount (extract s.h.b0 s.h.b1 s.h.b2 s.h.b3 byte)
        ngrp := saturatingSucc s.ngrp
        phase := 0#3 } 0#64)

/-- EXTRACT (R77, R90): the four pixel words of the group, and no other effect. It is no command, so it has no response
(log 4). -/
def execExtract (b0 b1 b2 b3 b4 : Byte) (s : State) : Host.Outcome State Fault Refusal :=
  .next { s with lanes := some (extract b0 b1 b2 b3 b4) }

end Sys2Proof.Machine
end

