-- ==== Sys2Proof/Machine/Assemble.lean ====
section
/-! DEFINITION. The Plane Assembler: the reference functions reduce, assemble and convert, and the commands END and
RDPIX. -/
namespace Sys2Proof.Machine

/-- `reduce(v, d) = v >> (10 - d)` (R112). -/
def reduce (v : Pixel) (d : LegalDepth) : Pixel := v >>> (10 - d.val)

/-- The flat sequence cut into `height` consecutive rows of `width` samples (R54). -/
def cutRows (width : Nat) : Nat → List Pixel → List (List Pixel)
  | 0, _ => []
  | height + 1, ps => ps.take width :: cutRows width height (ps.drop width)

/-- `assemble(pixels, width, height, target_depth)` (R111), the shape tested before the depth (R155). -/
def assemble (pixels : List Pixel) (width height : Word32) (depth : BitVec 8) : Except RequestError PixelPlane :=
  if width = 0#32 ∨ height = 0#32 ∨ pixels.length ≠ width.toNat * height.toNat then .error .shapeMismatch
  else
    match legalDepth? depth with
    | none => .error .depthOutOfRange
    | some d =>
      .ok ⟨height.toNat, width.toNat, (cutRows width.toNat height.toNat pixels).map (·.map (reduce · d))⟩

/-- `convert(buffer, width, height, target_depth)` (R114). -/
def convert (buffer : List Byte) (width height : Word32) (depth : BitVec 8) : Except RequestError PixelPlane :=
  match unpack buffer with
  | .error e => .error e
  | .ok pixels => assemble pixels width height depth

/-- `P[r][c]`, none outside the plane. -/
def PixelPlane.sample? (p : PixelPlane) (r c : Nat) : Option Pixel := (p.rows[r]?).bind (·[c]?)

/-- The cells of the plane for the `n` flat indices from `i` on: `PLANE[i] <- PIX[i] >> (10 - DEPTH)` (R116), or none if
one of those pixels holds no value. The two loops of R116 visit the flat indices 0 to `WIDTH * HEIGHT - 1` in order. -/
def planeCells (pix : Memory) (d : LegalDepth) (i : Nat) : Nat → Option Memory
  | 0 => some []
  | n + 1 =>
    match Memory.read pix i, planeCells pix d (i + 1) n with
    | some v, some rest => some ((i, reduce v d) :: rest)
    | _, _ => none

/-- `END` (R116): the three errors in their order of precedence (R155), or the whole plane at once. -/
def execEndReq (s : State) : Host.Outcome State Fault Refusal :=
  if s.fsm ≠ .run then .next s.reject
  else if s.phase ≠ 0#3 ∨ s.ngrp = 0#64 then .next (s.raise .invalidBufferLength)
  else if s.width = 0#32 ∨ s.height = 0#32 ∨ s.pixelCount ≠ s.planeSize then .next (s.raise .shapeMismatch)
  else
    match legalDepth? s.depth with
    | none => .next (s.raise .depthOutOfRange)
    | some d =>
      match planeCells s.pix d 0 s.planeSize with
      | none => .fault .unwrittenPixel
      | some cells => .next (State.accept { s with fsm := .done, plane := some cells } 0#64)

/-- The sample in row `r`, column `c` of the plane, by its flat index (R32, R54). -/
def State.planeRead (s : State) (r c : Nat) : Option Pixel :=
  s.plane.bind (Memory.read · (sampleIndex s.width.toNat r c))

/-- `RDPIX row, col` (R117). -/
def execRdpix (row col : Word32) (s : State) : Host.Outcome State Fault Refusal :=
  if s.fsm ≠ .done then .next s.reject
  else if s.height.toNat ≤ row.toNat ∨ s.width.toNat ≤ col.toNat then .next s.reject
  else
    match s.planeRead row.toNat col.toNat with
    | none => .fault .missingSample
    | some v => .next (s.accept (v.setWidth 64))

end Sys2Proof.Machine
end

