-- ==== Sys2Proof/Machine/Control.lean ====
section
/-! DEFINITION. The control commands NOP, WRCSR, RDCSR, START and CLEAR. -/
namespace Sys2Proof.Machine

/-- `NOP` (R132). -/
def execNop (s : State) : Host.Outcome State Fault Refusal := .next (s.accept 0#64)

/-- `WRCSR reg, value` (R133). -/
def execWrcsr (reg : Csr) (value : Word32) (s : State) : Host.Outcome State Fault Refusal :=
  if s.fsm ≠ .idle then .next s.reject
  else
    match s.csrWrite reg value with
    | none => .next s.reject
    | some t => .next (t.accept 0#64)

/-- `RDCSR reg` (R135). -/
def execRdcsr (reg : Csr) (s : State) : Host.Outcome State Fault Refusal :=
  match s.csrRead reg with
  | none => .next s.reject
  | some v => .next (s.accept v)

/-- `START` (R134). -/
def execStart (s : State) : Host.Outcome State Fault Refusal :=
  if s.fsm ≠ .idle then .next s.reject
  else if s.cfg.fits s.planeSize then
    .next (State.accept { s with phase := 0#3, ngrp := 0#64, err := none, fsm := .run } 0#64)
  else .next s.reject

/-- `CLEAR` (R137); rejected in RUN, since there is no cancel (R138). -/
def execClear (s : State) : Host.Outcome State Fault Refusal :=
  if s.fsm = .run then .next s.reject else .next (s.acknowledge.accept 0#64)

end Sys2Proof.Machine
end

