-- ==== Sys2Proof/Machine/Dispatch.lean ====
section
/-! DEFINITION. One arm per operation of the opcode table, each a call of its meaning. -/
namespace Sys2Proof.Machine

def exec (i : Instr) (s : State) : Host.Outcome State Fault Refusal :=
  match i with
  | .nop => Sys2Proof.Machine.execNop s
  | .wrcsr reg value => Sys2Proof.Machine.execWrcsr reg value s
  | .rdcsr reg => Sys2Proof.Machine.execRdcsr reg s
  | .start => Sys2Proof.Machine.execStart s
  | .push byte => Sys2Proof.Machine.execPush byte s
  | .endReq => Sys2Proof.Machine.execEndReq s
  | .rdpix row col => Sys2Proof.Machine.execRdpix row col s
  | .clear => Sys2Proof.Machine.execClear s
  | .extract b0 b1 b2 b3 b4 => Sys2Proof.Machine.execExtract b0 b1 b2 b3 b4 s

end Sys2Proof.Machine
end

