-- ==== Sys2Proof/Machine/Sequence.lean ====
section
/-! DEFINITION. How the core takes what the host presents: one input a step (R19, R61), reserved codes rejected (R78), and
the pseudo-commands of R83 as sequences of inputs. -/
namespace Sys2Proof.Machine

/-- One encoded operation: the decoded operation is performed; a word the decoder refuses is rejected (R78). -/
def State.perform (s : State) (r : Raw) : Host.Outcome State Fault Refusal :=
  match decode r with
  | .ok i => exec i s
  | .error _ => .next s.reject

/-- One step: take the next input and carry it out; with nothing presented the core waits (R19, R180, log 1). -/
def State.advance (s : State) : Host.Outcome State Fault Refusal :=
  match s.input with
  | [] => .next s
  | .reset :: rest => .next (State.hardReset { s with input := rest })
  | .word r :: rest => State.perform { s with input := rest } r

/-- The host presents one more operation, before everything it presents later. -/
def State.present (s : State) (r : Raw) : State := { s with input := .word r :: s.input }

/-- An operation as the host presents it, in its canonical encoding (R75). -/
def issue (i : Instr) : Input := .word (encode i)

/-- `CONFIG w, h, d` (R83). -/
def config (w h : Word32) (d : BitVec 8) : List Instr :=
  [.wrcsr .width w, .wrcsr .height h, .wrcsr .depth (d.setWidth 32)]

/-- `FEED buf` (R83, R56). -/
def feed (buf : List Byte) : List Instr := buf.map .push

/-- `CONVERT buf, w, h, d` (R83). -/
def convertCommands (buf : List Byte) (w h : Word32) (d : BitVec 8) : List Instr :=
  config w h d ++ .start :: feed buf ++ [.endReq]

/-- `READPLANE`: every row in order and, inside each row, every column in order (R83, R119). -/
def readPlane (w h : Word32) : List Instr :=
  (List.range h.toNat).flatMap fun r =>
    (List.range w.toNat).map fun c => .rdpix (BitVec.ofNat 32 r) (BitVec.ofNat 32 c)

end Sys2Proof.Machine
end

