-- ==== Sys2Proof/Machine/Step.lean ====
section
/-! DEFINITION. The step, and the placing of one operation where the next step takes it. -/
namespace Sys2Proof.Machine

def step : State → Host.Outcome State Fault Refusal := fun s => s.advance

/-- `s` with the operation of a table word presented as the next input (log 16, log 17). -/
def State.withFetchWord (s : State) (nbits w : Nat) : State := s.present (tableRaw nbits w)

end Sys2Proof.Machine
end

