-- ==== Sys2Proof/Safety.lean ====
section
/-! DEFINITION. What a good state is: the invariant every run keeps, and when two states look the same to the host. -/
namespace Sys2Proof.Machine

/-- The invariant of every state a run from reset can reach. -/
structure State.Inv (s : State) : Prop where
  /-- PHASE is 0 to 4 (R23). -/
  phase_legal : s.phase.toNat ≤ 4
  /-- `ERR != 0` if and only if `FSM == ERROR` (R30). -/
  err_iff : s.err.isSome = true ↔ s.fsm = .error
  /-- Code 3 is never raised (R153). -/
  err_raised : s.err ≠ some .unsupportedBayerOrder
  /-- In IDLE, PHASE and NGRP are 0 (R30). -/
  idle_zero : s.fsm = .idle → s.phase = 0#3 ∧ s.ngrp = 0#64
  /-- In IDLE and ERROR no pixel holds a value (R33, R158, U7). -/
  pix_unspecified : s.fsm = .idle ∨ s.fsm = .error → s.pix = []
  /-- PLANE exists only in DONE (R34). -/
  plane_iff : s.plane.isSome = true ↔ s.fsm = .done
  /-- The pixel store is in canonical form. -/
  pix_wf : Memory.wf s.pix = true
  /-- A pixel word is in [0, 1023] (R32). -/
  pix_range : ∀ i v, Memory.read s.pix i = some v → v.toNat ≤ 1023
  /-- START let no request in that does not fit the pixel store (R134). -/
  request_fits : s.fsm = .run ∨ s.fsm = .done → s.cfg.fits s.planeSize = true
  /-- After g groups the elements 0 to `min(4g, PIXCAP) - 1` are defined (R33). -/
  pix_defined : s.fsm = .run ∨ s.fsm = .done →
    ∀ i, i < s.pixelCount → s.cfg.holds i = true → (Memory.read s.pix i).isSome = true
  /-- And no other element is, as long as NGRP has not saturated (R25, R33). -/
  pix_only : s.ngrp.toNat < 2 ^ 64 - 1 →
    ∀ i, (Memory.read s.pix i).isSome = true → i < s.pixelCount ∧ s.cfg.holds i = true
  /-- What END has checked holds in DONE (R116). -/
  done_checked : s.fsm = .done →
    s.phase = 0#3 ∧ s.ngrp ≠ 0#64 ∧ s.width ≠ 0#32 ∧ s.height ≠ 0#32 ∧ s.pixelCount = s.planeSize ∧
      1 ≤ s.depth.toNat ∧ s.depth.toNat ≤ 10
  /-- The plane is in canonical form and holds exactly `WIDTH * HEIGHT` samples, each its pixel shifted right by
  `10 - DEPTH` (R116). -/
  plane_samples : ∀ p, s.plane = some p → Memory.wf p = true ∧
    (∀ i, i < s.planeSize → (Memory.read p i).isSome = true ∧
      Memory.read p i = (Memory.read s.pix i).map (fun v : Pixel => v >>> (10 - s.depth.toNat))) ∧
    ∀ i, s.planeSize ≤ i → Memory.read p i = none

/-- Two states differ at most in storage the spec calls unspecified (R21, R33, R35, U7): in a holding register this group
has not yet filled, in an element of PIX that is not among those received in RUN, and in the model's own counter of free
bytes. -/
structure SameVisible (s t : State) : Prop where
  fsm : s.fsm = t.fsm
  err : s.err = t.err
  phase : s.phase = t.phase
  ngrp : s.ngrp = t.ngrp
  width : s.width = t.width
  height : s.height = t.height
  depth : s.depth = t.depth
  plane : s.plane = t.plane
  cfg : s.cfg = t.cfg
  input : s.input = t.input
  rsp : s.rsp = t.rsp
  lanes : s.lanes = t.lanes
  /-- In RUN the bytes of the group in flight agree. -/
  held : s.fsm = .run → ∀ j, j < 4 → j < s.phase.toNat → s.h.get j = t.h.get j
  /-- In RUN the pixels received agree. -/
  received : s.fsm = .run → ∀ i, i < s.pixelCount → s.cfg.holds i = true → Memory.read s.pix i = Memory.read t.pix i

/-- The acceptance table of R130, by operation code and operands: is the command accepted in this state? -/
def tableAccepts (op : Nat) (a b : Word32) (s : State) : Bool :=
  match op with
  | 0 => true
  | 1 => s.fsm = .idle && a.toNat ≤ 2
  | 2 => a.toNat ≤ 4
  | 3 => s.fsm = .idle && s.cfg.fits (s.width.toNat * s.height.toNat)
  | 4 => s.fsm = .run
  | 5 => s.fsm = .run
  | 6 => s.fsm = .done && (a.toNat < s.height.toNat && b.toNat < s.width.toNat)
  | 7 => s.fsm ≠ .run
  | _ => false

/-- The state after an accepted command, by the same table (R130): the states of FSM it allows. -/
def tableNext (op : Nat) (before after : Fsm) : Prop :=
  match op with
  | 3 => after = .run
  | 5 => after = .done ∨ after = .error
  | 7 => after = .idle
  | _ => after = before

/-- The next input, if it is one of the host's commands the decoder reads as `i`. -/
def State.takesCommand (s : State) (i : Instr) : Prop :=
  ∃ w rest, s.input = .word (.command w) :: rest ∧ decode (.command w) = .ok i

/-- The next input is a reset. -/
def State.takesReset (s : State) : Prop := ∃ rest, s.input = .reset :: rest

end Sys2Proof.Machine
end

