-- ==== Sys2Proof/Certificates/Slice0/Obligations.lean ====
section
/-! DEFINITION. The statements about the RAW10 core for the provers. Each docstring names the rule it formalises. -/

open Sys2Proof Sys2Proof.Machine

/-- Words written out from the spec's encodings decode to the operations they stand for (examples of R96, R117, R133,
R135 and V1). -/
def Obligations.SampleWordsDecode : Prop :=
  decode (.command 0x00000000000000000) = .ok .nop ∧
  decode (.command 0x10000000200000008) = .ok (.wrcsr .depth 8) ∧
  decode (.command 0x20000000300000000) = .ok (.rdcsr .status) ∧
  decode (.command 0x30000000000000000) = .ok .start ∧
  decode (.command 0x400000000000000FF) = .ok (.push 0xFF) ∧
  decode (.command 0x50000000000000000) = .ok .endReq ∧
  decode (.command 0x60000000100000003) = .ok (.rdpix 1 3) ∧
  decode (.command 0x70000000000000000) = .ok .clear ∧
  decode (.group 0xFF00AA55E4) = .ok (.extract 0xFF 0x00 0xAA 0x55 0xE4)

/-- R76 with R75: the operation code alone selects the command, each operand is used as said, and every unused operand bit
is ignored. -/
def Obligations.OperationCodeSelectsCommand : Prop :=
  ∀ a b : Word32,
    decode (.command ((0 : BitVec 4) ++ a ++ b)) = .ok .nop ∧
    decode (.command ((1 : BitVec 4) ++ a ++ b)) = .ok (.wrcsr (Csr.ofNumber a) b) ∧
    decode (.command ((2 : BitVec 4) ++ a ++ b)) = .ok (.rdcsr (Csr.ofNumber a)) ∧
    decode (.command ((3 : BitVec 4) ++ a ++ b)) = .ok .start ∧
    (∃ v : Byte, v.toNat = b.toNat % 256 ∧ decode (.command ((4 : BitVec 4) ++ a ++ b)) = .ok (.push v)) ∧
    decode (.command ((5 : BitVec 4) ++ a ++ b)) = .ok .endReq ∧
    decode (.command ((6 : BitVec 4) ++ a ++ b)) = .ok (.rdpix a b) ∧
    decode (.command ((7 : BitVec 4) ++ a ++ b)) = .ok .clear ∧
    ∀ op : BitVec 4, 8 ≤ op.toNat → decode (.command (op ++ a ++ b)) = .error (.reservedOp op)

/-- Decoding the encoding of any well-formed operation gives it back, at every operand value. -/
def Obligations.DecodeOfEncode : Prop :=
  ∀ i : Instr, i.WellFormed → decode (encode i) = .ok i

/-- R79: every one of the 2^40 group values is legal, and it is read without loss: encoding what was decoded gives the
group word back. -/
def Obligations.EveryGroupWordLegal : Prop :=
  ∀ g : GroupWord, ∃ b0 b1 b2 b3 b4 : Byte,
    decode (.group g) = .ok (.extract b0 b1 b2 b3 b4) ∧ encode (.extract b0 b1 b2 b3 b4) = .group g

/-- What the decoder reads is well-formed; it refuses a command exactly when its operation code is 8 or more (R76, R78). -/
def Obligations.DecoderTotalAndWellFormed : Prop :=
  (∀ r i, decode r = .ok i → i.WellFormed) ∧
  ∀ w : CmdWord, (∃ e, decode (.command w) = .error e) ↔ 8 ≤ w.toNat / 2 ^ 64

/-- A step carries out the decoded operation at the state whose input has moved on by one (the model's input list is its
own choice, log 1). -/
def Obligations.StepRunsDecodedOperation : Prop :=
  ∀ (s : State) (r : Raw) (rest : List Input) (i : Instr),
    s.input = .word r :: rest → decode r = .ok i → step s = exec i { s with input := rest }

/-- With nothing presented the core waits unchanged (log 1; R19: it has no step of its own). -/
def Obligations.CoreWaitsForCommand : Prop :=
  ∀ s : State, s.input = [] → step s = .next s

/-- R78: a reserved operation code is rejected in every state, whatever its operand bits, and changes nothing else. -/
def Obligations.ReservedCodeRejected : Prop :=
  ∀ (s : State) (op : BitVec 4) (a b : Word32) (rest : List Input), 8 ≤ op.toNat →
    s.input = .word (.command (op ++ a ++ b)) :: rest →
    step s = .next { s with input := rest, rsp := some ⟨false, 0#64⟩ }

/-- From R36: what reset leaves. H is not named: the spec gives it no value (log 5); that PIX holds none is the model's
reading of the same words for PIX (log 7). -/
def Obligations.ResetValues : Prop :=
  State.reset.fsm = .idle ∧ State.reset.err = none ∧ State.reset.phase = 0#3 ∧ State.reset.ngrp = 0#64 ∧
  State.reset.width = 0#32 ∧ State.reset.height = 0#32 ∧ State.reset.depth = 0#8 ∧
  (∀ i, Memory.read State.reset.pix i = none) ∧ State.reset.plane = none

/-- From R180: reset may come in any state and gives FSM, ERR, PHASE, NGRP, WIDTH, HEIGHT, DEPTH and PLANE their values of
R36. The other clauses are the model's choices: reset is an input (log 2); no element of PIX holds a value, where R180 and
R36 leave PIX unspecified (log 7); no response stands (log 3); PIXCAP and the inputs to come stay (log 14). H is left out:
the spec gives it no value (log 5). -/
def Obligations.ResetEventFromAnyState : Prop :=
  ∀ (s : State) (rest : List Input), s.input = .reset :: rest →
    ∃ t, step s = .next t ∧ t.fsm = .idle ∧ t.err = none ∧ t.phase = 0#3 ∧ t.ngrp = 0#64 ∧ t.width = 0#32 ∧ t.height = 0#32 ∧
      t.depth = 0#8 ∧ (∀ i, Memory.read t.pix i = none) ∧ t.plane = none ∧ t.rsp = none ∧ t.cfg = s.cfg ∧ t.input = rest

/-- R132: NOP is accepted in every state and changes nothing but the response. -/
def Obligations.NopChangesNothing : Prop :=
  (∀ a b : Word32, decode (.command ((0 : BitVec 4) ++ a ++ b)) = .ok .nop) ∧
  ∀ s : State, exec .nop s = .next { s with rsp := some ⟨true, 0#64⟩ }

/-- R133: WRCSR writes WIDTH, HEIGHT or DEPTH in IDLE, DEPTH with the low eight bits; everything else is
rejected; and only WRCSR and reset change these registers. -/
def Obligations.WrcsrWritesConfigurationInIdle : Prop :=
  (∀ a b : Word32, decode (.command ((1 : BitVec 4) ++ a ++ b)) = .ok (.wrcsr (Csr.ofNumber a) b)) ∧
  Csr.ofNumber 0 = .width ∧ Csr.ofNumber 1 = .height ∧ Csr.ofNumber 2 = .depth ∧ Csr.ofNumber 3 = .status ∧
  Csr.ofNumber 4 = .ngrp ∧ (∀ n : Word32, 5 ≤ n.toNat → Csr.ofNumber n = .reserved n) ∧
  (∀ (s : State) (v : Word32),
    (s.fsm = .idle →
      exec (.wrcsr .width v) s = .next { s with width := v, rsp := some ⟨true, 0#64⟩ } ∧
      exec (.wrcsr .height v) s = .next { s with height := v, rsp := some ⟨true, 0#64⟩ } ∧
      exec (.wrcsr .depth v) s = .next { s with depth := BitVec.ofNat 8 v.toNat, rsp := some ⟨true, 0#64⟩ } ∧
      exec (.wrcsr .status v) s = .next { s with rsp := some ⟨false, 0#64⟩ } ∧
      exec (.wrcsr .ngrp v) s = .next { s with rsp := some ⟨false, 0#64⟩ } ∧
      ∀ n, exec (.wrcsr (.reserved n) v) s = .next { s with rsp := some ⟨false, 0#64⟩ }) ∧
    (s.fsm ≠ .idle → ∀ r, exec (.wrcsr r v) s = .next { s with rsp := some ⟨false, 0#64⟩ })) ∧
  ∀ s t : State, step s = .next t → ¬(t.width = s.width ∧ t.height = s.height ∧ t.depth = s.depth) →
    s.takesReset ∨ ∃ r v, s.takesCommand (.wrcsr r v)

/-- R135 with the layout of STATUS (R30): RDCSR answers registers 0 to 4 zero-extended in every state, rejects the rest,
and changes nothing but the response. -/
def Obligations.RdcsrReadsRegisters : Prop :=
  (∀ a b : Word32, decode (.command ((2 : BitVec 4) ++ a ++ b)) = .ok (.rdcsr (Csr.ofNumber a))) ∧
  ∀ s : State,
    exec (.rdcsr .width) s = .next { s with rsp := some ⟨true, BitVec.ofNat 64 s.width.toNat⟩ } ∧
    exec (.rdcsr .height) s = .next { s with rsp := some ⟨true, BitVec.ofNat 64 s.height.toNat⟩ } ∧
    exec (.rdcsr .depth) s = .next { s with rsp := some ⟨true, BitVec.ofNat 64 s.depth.toNat⟩ } ∧
    exec (.rdcsr .status) s = .next { s with rsp := some ⟨true, BitVec.ofNat 64
      (s.phase.toNat * 256 +
        (match s.err with
          | none => 0
          | some .invalidBufferLength => 1
          | some .shapeMismatch => 2
          | some .unsupportedBayerOrder => 3
          | some .depthOutOfRange => 4) * 16 +
        (match s.fsm with
          | .idle => 0
          | .run => 1
          | .done => 2
          | .error => 3))⟩ } ∧
    exec (.rdcsr .ngrp) s = .next { s with rsp := some ⟨true, s.ngrp⟩ } ∧
    ∀ n, exec (.rdcsr (.reserved n)) s = .next { s with rsp := some ⟨false, 0#64⟩ }

/-- R28 and R29: every 32-bit value of WIDTH and HEIGHT, and every 8-bit value of DEPTH, is accepted and reads back
unchanged. -/
def Obligations.WrittenRegisterReadsBack : Prop :=
  ∀ (s : State) (v : Word32), s.fsm = .idle →
    (∃ t u, exec (.wrcsr .width v) s = .next t ∧ exec (.rdcsr .width) t = .next u ∧
      u.rsp = some ⟨true, BitVec.ofNat 64 v.toNat⟩) ∧
    (∃ t u, exec (.wrcsr .height v) s = .next t ∧ exec (.rdcsr .height) t = .next u ∧
      u.rsp = some ⟨true, BitVec.ofNat 64 v.toNat⟩) ∧
    ∃ t u, exec (.wrcsr .depth v) s = .next t ∧ exec (.rdcsr .depth) t = .next u ∧
      u.rsp = some ⟨true, BitVec.ofNat 64 (v.toNat % 256)⟩

/-- R134: START begins a request in IDLE when `WIDTH * HEIGHT <= PIXCAP`, with the exact product, and is rejected
otherwise; it tests neither zero nor range. -/
def Obligations.StartBeginsRequest : Prop :=
  (∀ a b : Word32, decode (.command ((3 : BitVec 4) ++ a ++ b)) = .ok .start) ∧
  ∀ s : State,
    (s.fsm = .idle → (∀ cap, s.cfg.pixcap = some cap → s.width.toNat * s.height.toNat ≤ cap) →
      exec .start s =
        .next { s with fsm := .run, phase := 0#3, ngrp := 0#64, err := none, rsp := some ⟨true, 0#64⟩ }) ∧
    (s.fsm = .idle → (∃ cap, s.cfg.pixcap = some cap ∧ cap < s.width.toNat * s.height.toNat) →
      exec .start s = .next { s with rsp := some ⟨false, 0#64⟩ }) ∧
    (s.fsm ≠ .idle → exec .start s = .next { s with rsp := some ⟨false, 0#64⟩ })

/-- R96: PUSH outside RUN is rejected; before phase 4 it stores the byte in `H[PHASE]`; else (log 13) it writes the four
pixels of the group at the indices `4 * NGRP + k` below PIXCAP, and no other element of PIX. -/
def Obligations.PushTakesByte : Prop :=
  (∀ a b : Word32, ∃ v : Byte, v.toNat = b.toNat % 256 ∧ decode (.command ((4 : BitVec 4) ++ a ++ b)) = .ok (.push v)) ∧
  ∀ (s : State) (v : Byte),
    (s.fsm ≠ .run → exec (.push v) s = .next { s with rsp := some ⟨false, 0#64⟩ }) ∧
    (s.fsm = .run → s.phase = 0#3 → exec (.push v) s =
      .next { s with h := { s.h with b0 := v }, phase := 1#3, rsp := some ⟨true, 0#64⟩ }) ∧
    (s.fsm = .run → s.phase = 1#3 → exec (.push v) s =
      .next { s with h := { s.h with b1 := v }, phase := 2#3, rsp := some ⟨true, 0#64⟩ }) ∧
    (s.fsm = .run → s.phase = 2#3 → exec (.push v) s =
      .next { s with h := { s.h with b2 := v }, phase := 3#3, rsp := some ⟨true, 0#64⟩ }) ∧
    (s.fsm = .run → s.phase = 3#3 → exec (.push v) s =
      .next { s with h := { s.h with b3 := v }, phase := 4#3, rsp := some ⟨true, 0#64⟩ }) ∧
    (s.fsm = .run → 4 ≤ s.phase.toNat → ∃ m : Memory,
      exec (.push v) s =
        .next { s with pix := m, ngrp := BitVec.ofNat 64 (min (s.ngrp.toNat + 1) (2 ^ 64 - 1)), phase := 0#3,
                       rsp := some ⟨true, 0#64⟩ } ∧
      (∀ k, k < 4 → (∀ cap, s.cfg.pixcap = some cap → 4 * s.ngrp.toNat + k < cap) →
        Memory.read m (4 * s.ngrp.toNat + k) = (extract s.h.b0 s.h.b1 s.h.b2 s.h.b3 v).toList[k]?) ∧
      ∀ i, (i < 4 * s.ngrp.toNat ∨ 4 * s.ngrp.toNat + 4 ≤ i ∨ ∃ cap, s.cfg.pixcap = some cap ∧ cap ≤ i) →
        Memory.read m i = Memory.read s.pix i)

/-- R90: each pixel is four times its byte plus its two bits of the fifth byte, the concatenation of the two, in a 16-bit
word and at most 1023; the operand is one group word. -/
def Obligations.ExtractFormulas : Prop :=
  ∀ b0 b1 b2 b3 b4 : Byte,
    (extract b0 b1 b2 b3 b4).p0.toNat = 4 * b0.toNat + b4.toNat % 4 ∧
    (extract b0 b1 b2 b3 b4).p1.toNat = 4 * b1.toNat + b4.toNat / 4 % 4 ∧
    (extract b0 b1 b2 b3 b4).p2.toNat = 4 * b2.toNat + b4.toNat / 16 % 4 ∧
    (extract b0 b1 b2 b3 b4).p3.toNat = 4 * b3.toNat + b4.toNat / 64 ∧
    (extract b0 b1 b2 b3 b4).p0 = (b0 ++ b4.extractLsb' 0 2).setWidth 16 ∧
    (extract b0 b1 b2 b3 b4).p1 = (b1 ++ b4.extractLsb' 2 2).setWidth 16 ∧
    (extract b0 b1 b2 b3 b4).p2 = (b2 ++ b4.extractLsb' 4 2).setWidth 16 ∧
    (extract b0 b1 b2 b3 b4).p3 = (b3 ++ b4.extractLsb' 6 2).setWidth 16 ∧
    (∀ p ∈ (extract b0 b1 b2 b3 b4).toList, p.toNat ≤ 1023) ∧
    decode (.group (b0 ++ b1 ++ b2 ++ b3 ++ b4)) = .ok (.extract b0 b1 b2 b3 b4)

/-- R91: no lane reads another lane's byte or another lane's two bits. -/
def Obligations.LanesIndependent : Prop :=
  ∀ b0 b1 b2 b3 b4 c0 c1 c2 c3 c4 : Byte,
    (b0 = c0 → b4.extractLsb' 0 2 = c4.extractLsb' 0 2 →
      (extract b0 b1 b2 b3 b4).p0 = (extract c0 c1 c2 c3 c4).p0) ∧
    (b1 = c1 → b4.extractLsb' 2 2 = c4.extractLsb' 2 2 →
      (extract b0 b1 b2 b3 b4).p1 = (extract c0 c1 c2 c3 c4).p1) ∧
    (b2 = c2 → b4.extractLsb' 4 2 = c4.extractLsb' 4 2 →
      (extract b0 b1 b2 b3 b4).p2 = (extract c0 c1 c2 c3 c4).p2) ∧
    (b3 = c3 → b4.extractLsb' 6 2 = c4.extractLsb' 6 2 →
      (extract b0 b1 b2 b3 b4).p3 = (extract c0 c1 c2 c3 c4).p3)

/-- EXTRACT gives its four pixels and changes nothing else (R77, R90; where the result stands is the model's choice,
log 4). -/
def Obligations.ExtractGivesFourPixels : Prop :=
  ∀ (s : State) (b0 b1 b2 b3 b4 : Byte), ∃ q : Quad,
    exec (.extract b0 b1 b2 b3 b4) s = .next { s with lanes := some q } ∧
    q.p0.toNat = 4 * b0.toNat + b4.toNat % 4 ∧ q.p1.toNat = 4 * b1.toNat + b4.toNat / 4 % 4 ∧
    q.p2.toNat = 4 * b2.toNat + b4.toNat / 16 % 4 ∧ q.p3.toNat = 4 * b3.toNat + b4.toNat / 64 % 4

/-- R93 with R94: unpack fails exactly on a length that is not a positive multiple of 5, and otherwise gives four pixels
for each five bytes, each at most 1023, pixel k of group g at index `4g + k`. -/
def Obligations.UnpackGroupsInOrder : Prop :=
  ∀ buf : List Byte,
    (buf.length = 0 ∨ buf.length % 5 ≠ 0 → unpack buf = .error .invalidBufferLength) ∧
    (buf.length ≠ 0 → buf.length % 5 = 0 → ∃ ps : List Pixel,
      unpack buf = .ok ps ∧ ps.length = 4 * (buf.length / 5) ∧ (∀ p ∈ ps, p.toNat ≤ 1023) ∧
      ∀ (g : Nat) (b0 b1 b2 b3 b4 : Byte),
        buf[5 * g]? = some b0 → buf[5 * g + 1]? = some b1 → buf[5 * g + 2]? = some b2 →
        buf[5 * g + 3]? = some b3 → buf[5 * g + 4]? = some b4 →
        ∀ k, k < 4 → ps[4 * g + k]? = (extract b0 b1 b2 b3 b4).toList[k]?)

/-- R112: the reducer is the floor of the division by `2^(10 - d)`, its result at most `2^d - 1`, and it is defined exactly
for the depths 1 to 10. -/
def Obligations.ReduceIsFloorDivision : Prop :=
  (∀ (v : Pixel) (d : LegalDepth), (reduce v d).toNat = v.toNat / 2 ^ (10 - d.val)) ∧
  (∀ (v : Pixel) (d : LegalDepth), v.toNat ≤ 1023 → (reduce v d).toNat ≤ 2 ^ d.val - 1) ∧
  ∀ d : BitVec 8, (∃ e : LegalDepth, legalDepth? d = some e ∧ e.val = d.toNat) ↔ (1 ≤ d.toNat ∧ d.toNat ≤ 10)

/-- R113: the laws of the reducer on pixels of 10 bits. -/
def Obligations.ReducerLaws : Prop :=
  ∀ d : LegalDepth,
    reduce 0 d = 0 ∧ (reduce 1023 d).toNat = 2 ^ d.val - 1 ∧
    (∀ v w : Pixel, v.toNat ≤ w.toNat → (reduce v d).toNat ≤ (reduce w d).toNat) ∧
    (d.val = 10 → ∀ v : Pixel, reduce v d = v) ∧
    (d.val = 1 → ∀ v : Pixel, v.toNat ≤ 1023 → (reduce v d = 1 ↔ 512 ≤ v.toNat))

/-- R111 with R54 and R115: the shape is tested before the depth, with the exact product; a legal request gives a plane of
`height` rows of `width` samples, sample (r, c) reduced from pixel `r * width + c`. -/
def Obligations.AssembleRowMajor : Prop :=
  ∀ (ps : List Pixel) (w h : Word32) (d : BitVec 8),
    (w.toNat = 0 ∨ h.toNat = 0 ∨ ps.length ≠ w.toNat * h.toNat → assemble ps w h d = .error .shapeMismatch) ∧
    (w.toNat ≠ 0 → h.toNat ≠ 0 → ps.length = w.toNat * h.toNat → (d.toNat = 0 ∨ 10 < d.toNat) →
      assemble ps w h d = .error .depthOutOfRange) ∧
    (w.toNat ≠ 0 → h.toNat ≠ 0 → ps.length = w.toNat * h.toNat → 1 ≤ d.toNat → d.toNat ≤ 10 →
      ∃ P : PixelPlane, assemble ps w h d = .ok P ∧ P.height = h.toNat ∧ P.width = w.toNat ∧
        P.rows.length = h.toNat ∧ (∀ row ∈ P.rows, row.length = w.toNat) ∧
        ∀ r c, r < h.toNat → c < w.toNat → ∃ v x : Pixel,
          ps[r * w.toNat + c]? = some v ∧ P.sample? r c = some x ∧ x.toNat = v.toNat / 2 ^ (10 - d.toNat))

/-- R114: convert is unpack followed by assemble; a bad length is reported whatever the geometry and the depth. -/
def Obligations.ConvertIsUnpackThenAssemble : Prop :=
  ∀ (buf : List Byte) (w h : Word32) (d : BitVec 8),
    (buf.length = 0 ∨ buf.length % 5 ≠ 0 → convert buf w h d = .error .invalidBufferLength) ∧
    ∀ ps, unpack buf = .ok ps → convert buf w h d = assemble ps w h d

/-- R116: END. Outside RUN rejected; the three errors in their order, exactly one arm taken; otherwise the whole plane,
sample (r, c) being `PIX[r * WIDTH + c] >> (10 - DEPTH)`. After an error the plane does not exist, and PIX and H hold
something the statement leaves open (unspecified, U7). -/
def Obligations.EndValidatesAndAssembles : Prop :=
  (∀ a b : Word32, decode (.command ((5 : BitVec 4) ++ a ++ b)) = .ok .endReq) ∧
  ∀ s : State,
    (s.fsm ≠ .run → exec .endReq s = .next { s with rsp := some ⟨false, 0#64⟩ }) ∧
    (s.fsm = .run → (s.phase.toNat ≠ 0 ∨ s.ngrp.toNat = 0) → ∃ m h n, exec .endReq s =
      .next { s with fsm := .error, err := some .invalidBufferLength, pix := m, h := h, freeCount := n,
                     rsp := some ⟨true, 1#64⟩ }) ∧
    (s.fsm = .run → s.phase.toNat = 0 → s.ngrp.toNat ≠ 0 →
      (s.width.toNat = 0 ∨ s.height.toNat = 0 ∨ 4 * s.ngrp.toNat ≠ s.width.toNat * s.height.toNat) →
      ∃ m h n, exec .endReq s =
        .next { s with fsm := .error, err := some .shapeMismatch, pix := m, h := h, freeCount := n,
                       rsp := some ⟨true, 2#64⟩ }) ∧
    (s.fsm = .run → s.phase.toNat = 0 → s.ngrp.toNat ≠ 0 → s.width.toNat ≠ 0 → s.height.toNat ≠ 0 →
      4 * s.ngrp.toNat = s.width.toNat * s.height.toNat → (s.depth.toNat = 0 ∨ 10 < s.depth.toNat) →
      ∃ m h n, exec .endReq s =
        .next { s with fsm := .error, err := some .depthOutOfRange, pix := m, h := h, freeCount := n,
                       rsp := some ⟨true, 4#64⟩ }) ∧
    (s.fsm = .run → s.phase.toNat = 0 → s.ngrp.toNat ≠ 0 → s.width.toNat ≠ 0 → s.height.toNat ≠ 0 →
      4 * s.ngrp.toNat = s.width.toNat * s.height.toNat → 1 ≤ s.depth.toNat → s.depth.toNat ≤ 10 →
      (∀ i, i < 4 * s.ngrp.toNat → (Memory.read s.pix i).isSome = true) →
      ∃ p : Memory, exec .endReq s = .next { s with fsm := .done, plane := some p, rsp := some ⟨true, 0#64⟩ } ∧
        (∀ r c, r < s.height.toNat → c < s.width.toNat → ∃ v x : Pixel,
          Memory.read s.pix (r * s.width.toNat + c) = some v ∧ Memory.read p (r * s.width.toNat + c) = some x ∧
          x.toNat = v.toNat / 2 ^ (10 - s.depth.toNat)) ∧
        ∀ i, s.width.toNat * s.height.toNat ≤ i → Memory.read p i = none) ∧
    (s.Inv → ∀ t, exec .endReq s = .next t → t.fsm = .error → t.plane = none)

/-- The model's choice for storage no request has written (log 7): END stops there with a fault of its own name, so that it
never makes a plane of it. No run reaches this (StepNeverStops). -/
def Obligations.EndFaultsOnUnwrittenPixel : Prop :=
  ∀ s : State, s.fsm = .run → s.phase.toNat = 0 → s.ngrp.toNat ≠ 0 → s.width.toNat ≠ 0 → s.height.toNat ≠ 0 →
    4 * s.ngrp.toNat = s.width.toNat * s.height.toNat → 1 ≤ s.depth.toNat → s.depth.toNat ≤ 10 →
    (∃ i, i < 4 * s.ngrp.toNat ∧ Memory.read s.pix i = none) → exec .endReq s = .fault .unwrittenPixel

/-- R155: of several errors exactly one is reported, InvalidBufferLength before ShapeMismatch before DepthOutOfRange. -/
def Obligations.ErrorPrecedence : Prop :=
  ∀ s t : State, s.fsm = .run → exec .endReq s = .next t →
    (t.err = some .invalidBufferLength ∧ t.rsp = some ⟨true, 1#64⟩ ↔ s.phase ≠ 0#3 ∨ s.ngrp = 0#64) ∧
    (t.err = some .shapeMismatch ∧ t.rsp = some ⟨true, 2#64⟩ ↔
      ¬(s.phase ≠ 0#3 ∨ s.ngrp = 0#64) ∧
        (s.width = 0#32 ∨ s.height = 0#32 ∨ 4 * s.ngrp.toNat ≠ s.width.toNat * s.height.toNat)) ∧
    (t.err = some .depthOutOfRange ∧ t.rsp = some ⟨true, 4#64⟩ ↔
      ¬(s.phase ≠ 0#3 ∨ s.ngrp = 0#64) ∧
        ¬(s.width = 0#32 ∨ s.height = 0#32 ∨ 4 * s.ngrp.toNat ≠ s.width.toNat * s.height.toNat) ∧
        (s.depth = 0#8 ∨ 10 < s.depth.toNat))

/-- R117: RDPIX is accepted in DONE inside the plane and answers the sample, at most `2^DEPTH - 1`, changing nothing; it is
rejected everywhere else. -/
def Obligations.RdpixReadsSample : Prop :=
  (∀ a b : Word32, decode (.command ((6 : BitVec 4) ++ a ++ b)) = .ok (.rdpix a b)) ∧
  ∀ s : State, s.Inv → ∀ row col : Word32,
    (s.fsm ≠ .done → exec (.rdpix row col) s = .next { s with rsp := some ⟨false, 0#64⟩ }) ∧
    (s.fsm = .done → (s.height.toNat ≤ row.toNat ∨ s.width.toNat ≤ col.toNat) →
      exec (.rdpix row col) s = .next { s with rsp := some ⟨false, 0#64⟩ }) ∧
    (s.fsm = .done → row.toNat < s.height.toNat → col.toNat < s.width.toNat → ∃ (p : Memory) (v : Pixel),
      s.plane = some p ∧ Memory.read p (row.toNat * s.width.toNat + col.toNat) = some v ∧
      v.toNat ≤ 2 ^ s.depth.toNat - 1 ∧
      exec (.rdpix row col) s = .next { s with rsp := some ⟨true, BitVec.ofNat 64 v.toNat⟩ })

/-- R137: CLEAR is rejected in RUN; elsewhere it goes to IDLE with PHASE, NGRP and ERR zero, the plane gone,
keeping WIDTH, HEIGHT and DEPTH; what PIX and H then hold the statement leaves open (unspecified, U7). In IDLE it changes
nothing. -/
def Obligations.ClearEndsRequest : Prop :=
  (∀ a b : Word32, decode (.command ((7 : BitVec 4) ++ a ++ b)) = .ok .clear) ∧
  ∀ s : State,
    (s.fsm = .run → exec .clear s = .next { s with rsp := some ⟨false, 0#64⟩ }) ∧
    (s.fsm ≠ .run → ∃ m h n, exec .clear s =
      .next { s with fsm := .idle, phase := 0#3, ngrp := 0#64, err := none, plane := none, pix := m, h := h,
                     freeCount := n, rsp := some ⟨true, 0#64⟩ }) ∧
    (s.Inv → s.fsm = .idle → exec .clear s = .next { s with rsp := some ⟨true, 0#64⟩ })

/-- R131: a command whose response has `acc = 0` has `data = 0` and has changed nothing else. -/
def Obligations.RejectedChangesNothing : Prop :=
  ∀ (s t : State) (w : CmdWord) (rest : List Input), s.input = .word (.command w) :: rest → step s = .next t →
    (∃ d, t.rsp = some ⟨false, d⟩) → t = { s with input := rest, rsp := some ⟨false, 0#64⟩ }

/-- R130: the acceptance table, for every command word in every state of the invariant. -/
def Obligations.AcceptanceTable : Prop :=
  ∀ (s : State) (op : BitVec 4) (a b : Word32) (rest : List Input), s.Inv →
    s.input = .word (.command (op ++ a ++ b)) :: rest →
    ∃ t, step s = .next t ∧
      (tableAccepts op.toNat a b s = true → (∃ d, t.rsp = some ⟨true, d⟩) ∧ tableNext op.toNat s.fsm t.fsm) ∧
      (tableAccepts op.toNat a b s = false → t = { s with input := rest, rsp := some ⟨false, 0#64⟩ })

/-- R24: the codes and the reset value of FSM; its only transitions are reset to IDLE, START from IDLE to RUN, END from RUN to
DONE or ERROR, and CLEAR from DONE or ERROR to IDLE. -/
def Obligations.OnlyFsmTransitions : Prop :=
  Fsm.idle.code = 0 ∧ Fsm.run.code = 1 ∧ Fsm.done.code = 2 ∧ Fsm.error.code = 3 ∧ State.reset.fsm = .idle ∧
  ∀ s t : State, step s = .next t → s.fsm ≠ t.fsm →
    (s.takesReset ∧ t.fsm = .idle) ∨
    (s.takesCommand .start ∧ s.fsm = .idle ∧ t.fsm = .run) ∨
    (s.takesCommand .endReq ∧ s.fsm = .run ∧ (t.fsm = .done ∨ t.fsm = .error)) ∨
    (s.takesCommand .clear ∧ (s.fsm = .done ∨ s.fsm = .error) ∧ t.fsm = .idle)

/-- R138: there is no cancel. START and CLEAR are rejected in RUN, END is always accepted there and leaves RUN, and only END
and reset leave RUN. -/
def Obligations.NoCancelInRun : Prop :=
  ∀ s : State, s.Inv → s.fsm = .run →
    exec .start s = .next { s with rsp := some ⟨false, 0#64⟩ } ∧
    exec .clear s = .next { s with rsp := some ⟨false, 0#64⟩ } ∧
    (∃ t d, exec .endReq s = .next t ∧ t.rsp = some ⟨true, d⟩ ∧ (t.fsm = .done ∨ t.fsm = .error)) ∧
    ∀ t, step s = .next t → t.fsm ≠ .run → s.takesCommand .endReq ∨ s.takesReset

/-- R64: WIDTH, HEIGHT and DEPTH change only by a WRCSR in IDLE or by reset, so not during a request. -/
def Obligations.ConfigurationFixedDuringRequest : Prop :=
  ∀ s t : State, step s = .next t → ¬(t.width = s.width ∧ t.height = s.height ∧ t.depth = s.depth) →
    s.takesReset ∨ (s.fsm = .idle ∧ ∃ r v, s.takesCommand (.wrcsr r v))

/-- PIXCAP is a constant of the machine: no step, not even reset, changes it (R7, D12; its place in State is the model's
choice, log 9). -/
def Obligations.CapacityNeverChanges : Prop :=
  ∀ s t : State, step s = .next t → t.cfg = s.cfg

/-- R140: in DONE and in ERROR nothing of the request or its result changes until CLEAR or reset. -/
def Obligations.ResultFixedUntilClear : Prop :=
  ∀ s t : State, (s.fsm = .done ∨ s.fsm = .error) → step s = .next t → ¬s.takesCommand .clear → ¬s.takesReset →
    t = { s with input := s.input.tail, rsp := t.rsp, lanes := t.lanes }

/-- R23: PHASE goes 0, 1, 2, 3, 4, 0 by an accepted PUSH and is set to 0 by START, CLEAR and reset; nothing else changes
it. -/
def Obligations.PhaseAdvancesOnlyByPush : Prop :=
  ∀ s t : State, s.phase.toNat ≤ 4 → step s = .next t → t.phase ≠ s.phase →
    (s.fsm = .run ∧ (∃ v, s.takesCommand (.push v)) ∧ t.phase.toNat = (s.phase.toNat + 1) % 5) ∨
    (t.phase = 0#3 ∧ (s.takesCommand .start ∨ s.takesCommand .clear ∨ s.takesReset))

/-- R23: each accepted PUSH makes the number of bytes received, `5 * NGRP + PHASE`, one more, as long as NGRP has not
saturated. -/
def Obligations.PushCountsOneByte : Prop :=
  ∀ (s : State) (v : Byte), s.fsm = .run → s.phase.toNat ≤ 4 → s.ngrp.toNat < 2 ^ 64 - 1 →
    ∃ t, exec (.push v) s = .next t ∧
      5 * t.ngrp.toNat + t.phase.toNat = 5 * s.ngrp.toNat + s.phase.toNat + 1

/-- R25: at saturation END reports what it would with an exact count, InvalidBufferLength or ShapeMismatch, never a plane. -/
def Obligations.SaturatedCountNeverAssembles : Prop :=
  ∀ s : State, s.fsm = .run → s.ngrp.toNat = 2 ^ 64 - 1 →
    ∃ t, exec .endReq s = .next t ∧ t.fsm = .error ∧
      t.err = some (if s.phase = 0#3 then .shapeMismatch else .invalidBufferLength)

/-- R26: ERR is set only by END, on failure, and zeroed only by START, CLEAR and reset. -/
def Obligations.ErrorFlagWrittenOnlyByEnd : Prop :=
  ∀ s t : State, step s = .next t → t.err ≠ s.err →
    (s.takesCommand .endReq ∧ s.fsm = .run ∧ t.fsm = .error ∧ t.err.isSome = true) ∨
    (t.err = none ∧ (s.takesCommand .start ∨ s.takesCommand .clear ∨ s.takesReset))

/-- R59: RDCSR and RDPIX change no state and may be repeated: the second reading is the first. -/
def Obligations.ReadsAreIdempotent : Prop :=
  ∀ (s t : State) (i : Instr), ((∃ r, i = .rdcsr r) ∨ ∃ row col, i = .rdpix row col) → exec i s = .next t →
    t = { s with rsp := t.rsp } ∧ exec i t = .next t

/-- R157 with R34: after a step that ends in ERROR there is no plane, whole or partial, and every RDPIX is rejected. -/
def Obligations.NoPlaneAfterError : Prop :=
  ∀ s t : State, s.Inv → step s = .next t → t.fsm = .error →
    t.plane = none ∧
    ∀ row col, exec (.rdpix row col) t = .next { t with rsp := some ⟨false, 0#64⟩ }

/-- The invariant holds after reset, whatever the host presents next and whatever PIXCAP is. -/
def Obligations.ResetMeetsInvariant : Prop :=
  ∀ (c : Config) (inputs : List Input), State.Inv { State.reset with cfg := c, input := inputs }

/-- Every step keeps the invariant. -/
def Obligations.StepKeepsInvariant : Prop :=
  ∀ s t : State, s.Inv → step s = .next t → t.Inv

/-- R136: from every state of the invariant the step answers a next state, never a fault or a refusal. -/
def Obligations.StepNeverStops : Prop :=
  ∀ s : State, s.Inv → ∃ t, step s = .next t

/-- Whatever the host issues after reset, and whatever PIXCAP is, no run stops, and every state of it meets the
invariant. -/
def Obligations.EveryRunFromResetGoesOn : Prop :=
  ∀ (c : Config) (inputs : List Input) (n : Nat),
    ∃ t : State, Host.Core.run core n { State.reset with cfg := c, input := inputs } = .next t ∧ t.Inv

/-- R35 at one step: storage the spec calls unspecified is never observed. Two states that differ only there stay so, and
the step responds the same. It makes the values H holds at reset, after CLEAR and after an error immaterial (log 5,
log 6). -/
def Obligations.UnspecifiedStorageUnobservable : Prop :=
  ∀ s t s' : State, s.Inv → SameVisible s t → step s = .next s' → ∃ t', step t = .next t' ∧ SameVisible s' t'

/-- R35 and R181: nothing survives from one request to the next but WIDTH, HEIGHT and DEPTH. Two cores in IDLE with the same
configuration, whatever requests they served before, answer every later sequence of inputs alike. -/
def Obligations.OutcomeIndependentOfHistory : Prop :=
  ∀ (s t : State), s.Inv → t.Inv → s.fsm = .idle → t.fsm = .idle → s.width = t.width → s.height = t.height →
    s.depth = t.depth → s.cfg = t.cfg → s.input = t.input → s.rsp = t.rsp → s.lanes = t.lanes →
    ∀ n, ∃ s' t' : State, Host.Core.run core n s = .next s' ∧ Host.Core.run core n t = .next t' ∧
      s'.rsp = t'.rsp ∧ s'.lanes = t'.lanes ∧ s'.status = t'.status ∧ s'.ngrp = t'.ngrp ∧ s'.plane = t'.plane

/-- R97: what RUN holds after an accepted START and any commands but END, `B` being the bytes of the PUSH commands among
them, as long as NGRP has not saturated. -/
def Obligations.RunHoldsWhatWasPushed : Prop :=
  ∀ (s : State) (cs : List Instr) (rest : List Input) (B : List Byte),
    s.fsm = .idle → s.cfg.fits (s.width.toNat * s.height.toNat) = true →
    (∀ i ∈ cs, i.WellFormed ∧ i ≠ .endReq) →
    B = cs.filterMap (fun i => match i with | .push v => some v | _ => none) →
    B.length < 5 * (2 ^ 64 - 1) →
    s.input = issue .start :: cs.map issue ++ rest →
    ∃ t : State, Host.Core.run core (cs.length + 1) s = .next t ∧ t.fsm = .run ∧ t.input = rest ∧
      t.phase.toNat = B.length % 5 ∧ t.ngrp.toNat = B.length / 5 ∧
      (5 ≤ B.length → ∃ ps, unpack (B.take (5 * (B.length / 5))) = .ok ps ∧
        ∀ i, i < 4 * (B.length / 5) → s.cfg.holds i = true → Memory.read t.pix i = ps[i]?) ∧
      ∀ j, j < B.length % 5 → some (t.h.get j) = B[5 * (B.length / 5) + j]?

/-- R118: the commands carry out the functions. From IDLE, `CONVERT buf, w, h, d` is accepted command by command, and ends as
the reference function convert does: with the plane it returns, sample by sample, or with the error it returns. -/
def Obligations.CommandsCarryOutConvert : Prop :=
  ∀ (s : State) (buf : List Byte) (w h : Word32) (d : BitVec 8) (rest : List Input),
    s.fsm = .idle → s.cfg.fits (w.toNat * h.toNat) = true → buf.length < 5 * (2 ^ 64 - 1) →
    s.input = (convertCommands buf w h d).map issue ++ rest →
    (∀ k, k < (convertCommands buf w h d).length →
      ∃ (t : State) (x : Word64), Host.Core.run core (k + 1) s = .next t ∧ t.rsp = some ⟨true, x⟩) ∧
    ∃ t : State, Host.Core.run core (convertCommands buf w h d).length s = .next t ∧ t.input = rest ∧
      (∀ P, convert buf w h d = .ok P →
        t.fsm = .done ∧ t.rsp = some ⟨true, 0#64⟩ ∧
        ∀ r c : Word32, r.toNat < h.toNat → c.toNat < w.toNat → ∃ v : Pixel,
          P.sample? r.toNat c.toNat = some v ∧
          exec (.rdpix r c) t = .next { t with rsp := some ⟨true, BitVec.ofNat 64 v.toNat⟩ }) ∧
      ∀ e, convert buf w h d = .error e →
        t.fsm = .error ∧ t.err = some e ∧ t.rsp = some ⟨true, BitVec.ofNat 64 e.code.toNat⟩ ∧
        ∀ r c : Word32, exec (.rdpix r c) t = .next { t with rsp := some ⟨false, 0#64⟩ }

/-- R119 with R83: READPLANE in DONE yields the samples in row-major order, the plane needing no rearrangement. -/
def Obligations.ReadPlaneYieldsRowMajor : Prop :=
  ∀ (s : State) (p : Memory) (rest : List Input), s.Inv → s.fsm = .done → s.plane = some p →
    s.input = (readPlane s.width s.height).map issue ++ rest →
    ∀ k, k < s.width.toNat * s.height.toNat → ∃ (t : State) (v : Pixel),
      Host.Core.run core (k + 1) s = .next t ∧ Memory.read p k = some v ∧
      t.rsp = some ⟨true, BitVec.ofNat 64 v.toNat⟩ ∧ t.plane = s.plane
end

