-- ==== Sys2Proof/Laws/Memory.lean ====
section
/-! SUPPORT. The laws of the data spaces: read after write, the canonical form, and what storing a group changes. -/
namespace Sys2Proof.Machine

@[simp] theorem Memory.read_nil (i : Nat) : Memory.read [] i = none := rfl

/-- Read after write: the written index gives the value, every other index what it gave before. -/
theorem Memory.read_write (m : Memory) (i : Nat) (v : Pixel) (k : Nat) :
    Memory.read (Memory.write m i v) k = if k = i then some v else Memory.read m k := by
  induction m with
  | nil => simp [Memory.write, Memory.read]
  | cons c rest ih =>
    obtain ⟨j, u⟩ := c
    simp only [Memory.write]
    split
    · simp [Memory.read]
    · split
      · rename_i h; subst h
        by_cases hk : k = i <;> simp [Memory.read, hk]
      · rename_i h1 h2
        by_cases hk : k = j
        · subst hk; simp [Memory.read, Ne.symm h2]
        · simp [Memory.read, hk, ih]

@[simp] theorem Memory.read_write_self (m : Memory) (i : Nat) (v : Pixel) :
    Memory.read (Memory.write m i v) i = some v := by simp [Memory.read_write]

theorem Memory.read_write_other (m : Memory) (i : Nat) (v : Pixel) (k : Nat) (h : k ≠ i) :
    Memory.read (Memory.write m i v) k = Memory.read m k := by simp [Memory.read_write, h]

/-- A write below which nothing is listed keeps the rising order. -/
theorem Memory.risesFrom_write (m : Memory) (i : Nat) (v : Pixel) (low : Option Nat)
    (hlow : ∀ l, low = some l → l < i) (h : Memory.risesFrom low m = true) :
    Memory.risesFrom low (Memory.write m i v) = true := by
  induction m generalizing low with
  | nil => cases low <;> simp_all [Memory.write, Memory.risesFrom]
  | cons c rest ih =>
    obtain ⟨j, u⟩ := c
    have hrest : Memory.risesFrom (some j) rest = true := by cases low <;> simp_all [Memory.risesFrom]
    simp only [Memory.write]
    split
    · cases low <;> simp_all [Memory.risesFrom]
    · split
      · rename_i h; subst h; cases low <;> simp_all [Memory.risesFrom]
      · rename_i h1 h2
        have := ih (some j) (by simp; omega) hrest
        cases low <;> simp_all [Memory.risesFrom]

/-- Every write keeps the canonical form. -/
theorem Memory.wf_write (m : Memory) (i : Nat) (v : Pixel) (h : Memory.wf m = true) :
    Memory.wf (Memory.write m i v) = true :=
  Memory.risesFrom_write m i v none (by simp) h

theorem Memory.wf_nil : Memory.wf [] = true := rfl

theorem Memory.wf_writeWithin (c : Config) (m : Memory) (i : Nat) (v : Pixel) (h : Memory.wf m = true) :
    Memory.wf (Memory.writeWithin c m i v) = true := by
  unfold Memory.writeWithin
  split
  · exact Memory.wf_write m i v h
  · exact h

theorem Memory.read_writeWithin (c : Config) (m : Memory) (i : Nat) (v : Pixel) (k : Nat) :
    Memory.read (Memory.writeWithin c m i v) k = if k = i ∧ c.holds i = true then some v else Memory.read m k := by
  unfold Memory.writeWithin
  split <;> simp_all [Memory.read_write]

theorem wf_storeQuad (c : Config) (m : Memory) (i : Nat) (q : Quad) (h : Memory.wf m = true) :
    Memory.wf (storeQuad c m i q) = true := by
  unfold storeQuad
  exact Memory.wf_writeWithin _ _ _ _ (Memory.wf_writeWithin _ _ _ _ (Memory.wf_writeWithin _ _ _ _
    (Memory.wf_writeWithin _ _ _ _ h)))

/-- Storing a group: the four indices from `i` on that the store has take the four pixels, every other index is as
before. -/
theorem read_storeQuad (c : Config) (m : Memory) (i : Nat) (q : Quad) (k : Nat) :
    Memory.read (storeQuad c m i q) k =
      if i ≤ k ∧ k < i + 4 ∧ c.holds k = true then q.toList[k - i]? else Memory.read m k := by
  unfold storeQuad
  simp only [Memory.read_writeWithin]
  by_cases h0 : k = i
  · subst h0; by_cases hc : c.holds k = true <;> simp [hc, Quad.toList]
  by_cases h1 : k = i + 1
  · subst h1; by_cases hc : c.holds (i + 1) = true <;> simp [hc, Quad.toList]
  by_cases h2 : k = i + 2
  · subst h2; by_cases hc : c.holds (i + 2) = true <;> simp [hc, Quad.toList]
  by_cases h3 : k = i + 3
  · subst h3; by_cases hc : c.holds (i + 3) = true <;> simp [hc, Quad.toList]
  have : ¬(i ≤ k ∧ k < i + 4 ∧ c.holds k = true) := by omega
  simp [h0, h1, h2, h3, this]

theorem Quad.toList_length (q : Quad) : q.toList.length = 4 := rfl

/-- A list of cells rising from `low` lists no index at or below `low`. -/
theorem Memory.read_of_risesFrom (m : Memory) (low i : Nat) (h : Memory.risesFrom (some low) m = true) (hi : i ≤ low) :
    Memory.read m i = none := by
  induction m generalizing low with
  | nil => rfl
  | cons c rest ih =>
    obtain ⟨j, u⟩ := c
    simp only [Memory.risesFrom, Bool.and_eq_true, decide_eq_true_eq] at h
    have : i ≠ j := by omega
    simp [Memory.read, this, ih j h.2 (by omega)]

end Sys2Proof.Machine
end

