-- ==== Sys2Proof/Laws/Assemble.lean ====
section
/-! SUPPORT. What the assembler's loops give: the legal depth, the cells of the plane, the rows of the reference plane. -/
namespace Sys2Proof.Machine

theorem legalDepth?_some {d : BitVec 8} {e : LegalDepth} (h : legalDepth? d = some e) :
    e.val = d.toNat ∧ 1 ≤ d.toNat ∧ d.toNat ≤ 10 := by
  unfold legalDepth? at h
  split at h
  · rename_i hd; simp only [Option.some.injEq] at h; subst h; exact ⟨rfl, hd⟩
  · cases h

theorem legalDepth?_of_legal (d : BitVec 8) (h : 1 ≤ d.toNat ∧ d.toNat ≤ 10) : legalDepth? d = some ⟨d.toNat, h⟩ := by
  simp [legalDepth?, h]

theorem legalDepth?_eq_none (d : BitVec 8) : legalDepth? d = none ↔ d.toNat = 0 ∨ 10 < d.toNat := by
  unfold legalDepth?
  split
  · simp; omega
  · simp; omega

theorem reduce_toNat (v : Pixel) (d : LegalDepth) : (reduce v d).toNat = v.toNat / 2 ^ (10 - d.val) := by
  simp [reduce, Nat.shiftRight_eq_div_pow]

/-- The cells of the plane: there are some exactly when every pixel asked for holds a value. -/
theorem planeCells_isSome (pix : Memory) (d : LegalDepth) (n i : Nat) :
    (planeCells pix d i n).isSome = true ↔ ∀ k, i ≤ k → k < i + n → (Memory.read pix k).isSome = true := by
  induction n generalizing i with
  | zero => simp [planeCells]; omega
  | succ n ih =>
    have ih := ih (i + 1)
    simp only [planeCells]
    constructor
    · intro h k hk1 hk2
      split at h
      · rename_i v rest hv hr
        by_cases hki : k = i
        · subst hki; simp [hv]
        · exact ih.mp (by simp [hr]) k (by omega) (by omega)
      · cases h
    · intro h
      obtain ⟨v, hv⟩ := Option.isSome_iff_exists.mp (h i (by omega) (by omega))
      obtain ⟨rest, hr⟩ := Option.isSome_iff_exists.mp (ih.mpr fun k a b => h k (by omega) (by omega))
      simp [hv, hr]

/-- Each cell of the plane is its pixel, reduced; no other index is listed; and the cells rise. -/
theorem planeCells_some {pix : Memory} {d : LegalDepth} {n i : Nat} {p : Memory} (h : planeCells pix d i n = some p) :
    (∀ k, i ≤ k → k < i + n → Memory.read p k = (Memory.read pix k).map (reduce · d)) ∧
    (∀ k, (k < i ∨ i + n ≤ k) → Memory.read p k = none) ∧
    ∀ low, (∀ l, low = some l → l < i) → Memory.risesFrom low p = true := by
  induction n generalizing i p with
  | zero =>
    simp only [planeCells, Option.some.injEq] at h
    subst h
    refine ⟨fun k a b => by omega, fun k _ => rfl, fun low _ => ?_⟩
    cases low <;> rfl
  | succ n ih =>
    simp only [planeCells] at h
    split at h
    · rename_i v rest hv hr
      simp only [Option.some.injEq] at h
      subst h
      obtain ⟨h1, h2, h3⟩ := ih hr
      refine ⟨fun k a b => ?_, fun k hk => ?_, fun low hl => ?_⟩
      · by_cases hki : k = i
        · subst hki; simp [Memory.read, hv]
        · simp [Memory.read, hki, h1 k (by omega) (by omega)]
      · have : k ≠ i := by omega
        simp [Memory.read, this, h2 k (by omega)]
      · have := h3 (some i) (by simp)
        cases low <;> simp_all [Memory.risesFrom]
    · cases h

/-- The cells depend only on the pixels asked for. -/
theorem planeCells_congr (pix pix' : Memory) (d : LegalDepth) (n i : Nat)
    (h : ∀ k, i ≤ k → k < i + n → Memory.read pix k = Memory.read pix' k) :
    planeCells pix d i n = planeCells pix' d i n := by
  induction n generalizing i with
  | zero => rfl
  | succ n ih =>
    simp only [planeCells]
    rw [h i (by omega) (by omega), ih (i + 1) fun k a b => h k (by omega) (by omega)]

/-- Row `r` of the rows cut from a flat sequence. -/
theorem cutRows_getElem? (w : Nat) (h : Nat) (ps : List Pixel) (r : Nat) (hr : r < h) :
    (cutRows w h ps)[r]? = some ((ps.drop (r * w)).take w) := by
  induction h generalizing ps r with
  | zero => omega
  | succ h ih =>
    cases r with
    | zero => simp [cutRows]
    | succ r =>
      simp only [cutRows, List.getElem?_cons_succ]
      rw [ih (ps.drop w) r (by omega), List.drop_drop, Nat.succ_mul, Nat.add_comm w]

theorem cutRows_length (w h : Nat) (ps : List Pixel) : (cutRows w h ps).length = h := by
  induction h generalizing ps with
  | zero => rfl
  | succ h ih => simp [cutRows, ih]

/-- Four pixels for every complete group. -/
theorem groupPixels_length : ∀ buf : List Byte, (groupPixels buf).length = 4 * (buf.length / 5)
  | b0 :: b1 :: b2 :: b3 :: b4 :: rest => by
    simp only [groupPixels, List.length_append, Quad.toList_length, groupPixels_length rest, List.length_cons]
    omega
  | [] => rfl
  | [_] => by simp [groupPixels]
  | [_, _] => by simp [groupPixels]
  | [_, _, _] => by simp [groupPixels]
  | [_, _, _, _] => by simp [groupPixels]

end Sys2Proof.Machine
end

