-- ==== Sys2Proof/Laws/Decode.lean ====
section
/-! SUPPORT. The fields of an encoded command, register numbers, and what decoding each operation code gives. -/
namespace Sys2Proof

/-- Concatenation as a number. -/
theorem toNat_append_eq_add {m n : Nat} (x : BitVec m) (y : BitVec n) :
    (x ++ y).toNat = x.toNat * 2 ^ n + y.toNat := by
  rw [BitVec.toNat_append, ← Nat.shiftLeft_add_eq_or_of_lt y.isLt, Nat.shiftLeft_eq]

/-- A command word as a number (R72). -/
theorem commandWord_toNat (op : BitVec 4) (a b : Word32) :
    (commandWord op a b).toNat = op.toNat * 2 ^ 64 + a.toNat * 2 ^ 32 + b.toNat := by
  have h : (op ++ a ++ b).toNat = (op ++ a).toNat * 2 ^ 32 + b.toNat := toNat_append_eq_add (op ++ a) b
  have h' : (op ++ a).toNat = op.toNat * 2 ^ 32 + a.toNat := toNat_append_eq_add op a
  have : (commandWord op a b).toNat = (op ++ a ++ b).toNat := rfl
  omega

/-- A group word as a number (R70). -/
theorem groupWord_toNat (b0 b1 b2 b3 b4 : Byte) :
    (groupWord b0 b1 b2 b3 b4).toNat =
      b0.toNat * 2 ^ 32 + b1.toNat * 2 ^ 24 + b2.toNat * 2 ^ 16 + b3.toNat * 2 ^ 8 + b4.toNat := by
  have h1 : (b0 ++ b1).toNat = b0.toNat * 2 ^ 8 + b1.toNat := toNat_append_eq_add b0 b1
  have h2 : (b0 ++ b1 ++ b2).toNat = (b0 ++ b1).toNat * 2 ^ 8 + b2.toNat := toNat_append_eq_add (b0 ++ b1) b2
  have h3 : (b0 ++ b1 ++ b2 ++ b3).toNat = (b0 ++ b1 ++ b2).toNat * 2 ^ 8 + b3.toNat :=
    toNat_append_eq_add (b0 ++ b1 ++ b2) b3
  have h4 : (b0 ++ b1 ++ b2 ++ b3 ++ b4).toNat = (b0 ++ b1 ++ b2 ++ b3).toNat * 2 ^ 8 + b4.toNat :=
    toNat_append_eq_add (b0 ++ b1 ++ b2 ++ b3) b4
  have : (groupWord b0 b1 b2 b3 b4).toNat = (b0 ++ b1 ++ b2 ++ b3 ++ b4).toNat := rfl
  omega

/-- A field of a word as a number. -/
theorem extract_toNat {w : Nat} (x : BitVec w) (i n : Nat) :
    (x.extractLsb' i n).toNat = x.toNat / 2 ^ i % 2 ^ n := by
  rw [BitVec.extractLsb'_toNat, Nat.shiftRight_eq_div_pow]

@[simp] theorem opField_commandWord (op : BitVec 4) (a b : Word32) : opField (commandWord op a b) = op := by
  apply BitVec.eq_of_toNat_eq
  rw [opField, extract_toNat, commandWord_toNat]
  have := a.isLt
  have := b.isLt
  have := op.isLt
  omega

@[simp] theorem aField_commandWord (op : BitVec 4) (a b : Word32) : aField (commandWord op a b) = a := by
  apply BitVec.eq_of_toNat_eq
  rw [aField, extract_toNat, commandWord_toNat]
  have := a.isLt
  have := b.isLt
  have := op.isLt
  omega

@[simp] theorem bField_commandWord (op : BitVec 4) (a b : Word32) : bField (commandWord op a b) = b := by
  apply BitVec.eq_of_toNat_eq
  rw [bField, extract_toNat, commandWord_toNat]
  have := a.isLt
  have := b.isLt
  have := op.isLt
  omega

/-- A command word is the concatenation of its three fields. -/
theorem commandWord_fields (w : CmdWord) : commandWord (opField w) (aField w) (bField w) = w := by
  apply BitVec.eq_of_toNat_eq
  rw [commandWord_toNat, opField, aField, bField, extract_toNat, extract_toNat, extract_toNat]
  have := w.isLt
  omega

theorem Csr.ofNumber_wellFormed (n : Word32) : (Csr.ofNumber n).WellFormed := by
  unfold Csr.ofNumber
  split <;> simp_all [Csr.WellFormed, Csr.wellFormed]
  omega

theorem Csr.ofNumber_number (r : Csr) (h : r.WellFormed) : Csr.ofNumber r.number = r := by
  cases r with
  | reserved n =>
    simp only [Csr.WellFormed, Csr.wellFormed, decide_eq_true_eq] at h
    simp only [Csr.number, Csr.ofNumber]
    split <;> first | rfl | omega
  | _ => rfl

/-- A register number is the number of the register it selects. -/
theorem Csr.number_ofNumber (n : Word32) : (Csr.ofNumber n).number = n := by
  unfold Csr.ofNumber
  split <;> first | rfl | (apply BitVec.eq_of_toNat_eq; simp_all [Csr.number])

/-- The low byte of a zero-extended byte is the byte. -/
@[simp] theorem lowByte_setWidth (v : Byte) : (v.setWidth 32).extractLsb' 0 8 = v := by
  apply BitVec.eq_of_toNat_eq
  rw [extract_toNat, BitVec.toNat_setWidth]
  have := v.isLt
  omega

/-- The five bytes of a group word. -/
theorem decodeGroup_groupWord (b0 b1 b2 b3 b4 : Byte) :
    decodeGroup (groupWord b0 b1 b2 b3 b4) = .extract b0 b1 b2 b3 b4 := by
  have h0 := b0.isLt
  have h1 := b1.isLt
  have h2 := b2.isLt
  have h3 := b3.isLt
  have h4 := b4.isLt
  simp only [decodeGroup, Instr.extract.injEq]
  refine ⟨?_, ?_, ?_, ?_, ?_⟩ <;> apply BitVec.eq_of_toNat_eq <;> rw [extract_toNat, groupWord_toNat] <;> omega

/-- A group word is the concatenation of the five bytes read from it. -/
theorem groupWord_bytes (g : GroupWord) :
    groupWord (g.extractLsb' 32 8) (g.extractLsb' 24 8) (g.extractLsb' 16 8) (g.extractLsb' 8 8)
      (g.extractLsb' 0 8) = g := by
  apply BitVec.eq_of_toNat_eq
  rw [groupWord_toNat, extract_toNat, extract_toNat, extract_toNat, extract_toNat, extract_toNat]
  have := g.isLt
  omega

/-- Decoding a command by its fields (R76): the operation code selects. -/
theorem decodeCommand_commandWord (op : BitVec 4) (a b : Word32) :
    decodeCommand (commandWord op a b) =
      (match op.toNat with
      | 0 => .ok .nop
      | 1 => .ok (.wrcsr (Csr.ofNumber a) b)
      | 2 => .ok (.rdcsr (Csr.ofNumber a))
      | 3 => .ok .start
      | 4 => .ok (.push (b.extractLsb' 0 8))
      | 5 => .ok .endReq
      | 6 => .ok (.rdpix a b)
      | 7 => .ok .clear
      | _ => .error (.reservedOp op)) := by
  simp [decodeCommand] <;> rfl

end Sys2Proof
end

