-- ==== Sys2Proof/Laws/State.lean ====
section
/-! SUPPORT. One lemma per field for each shared update of the state, so that no proof unfolds a record update. -/
namespace Sys2Proof.Machine

@[simp] theorem State.accept_fsm (s : State) (d : Word64) : (s.accept d).fsm = s.fsm := rfl
@[simp] theorem State.accept_err (s : State) (d : Word64) : (s.accept d).err = s.err := rfl
@[simp] theorem State.accept_phase (s : State) (d : Word64) : (s.accept d).phase = s.phase := rfl
@[simp] theorem State.accept_ngrp (s : State) (d : Word64) : (s.accept d).ngrp = s.ngrp := rfl
@[simp] theorem State.accept_width (s : State) (d : Word64) : (s.accept d).width = s.width := rfl
@[simp] theorem State.accept_height (s : State) (d : Word64) : (s.accept d).height = s.height := rfl
@[simp] theorem State.accept_depth (s : State) (d : Word64) : (s.accept d).depth = s.depth := rfl
@[simp] theorem State.accept_h (s : State) (d : Word64) : (s.accept d).h = s.h := rfl
@[simp] theorem State.accept_pix (s : State) (d : Word64) : (s.accept d).pix = s.pix := rfl
@[simp] theorem State.accept_plane (s : State) (d : Word64) : (s.accept d).plane = s.plane := rfl
@[simp] theorem State.accept_cfg (s : State) (d : Word64) : (s.accept d).cfg = s.cfg := rfl
@[simp] theorem State.accept_input (s : State) (d : Word64) : (s.accept d).input = s.input := rfl
@[simp] theorem State.accept_rsp (s : State) (d : Word64) : (s.accept d).rsp = some ⟨true, d⟩ := rfl
@[simp] theorem State.accept_lanes (s : State) (d : Word64) : (s.accept d).lanes = s.lanes := rfl
@[simp] theorem State.accept_freeCount (s : State) (d : Word64) : (s.accept d).freeCount = s.freeCount := rfl

@[simp] theorem State.reject_fsm (s : State) : s.reject.fsm = s.fsm := rfl
@[simp] theorem State.reject_err (s : State) : s.reject.err = s.err := rfl
@[simp] theorem State.reject_phase (s : State) : s.reject.phase = s.phase := rfl
@[simp] theorem State.reject_ngrp (s : State) : s.reject.ngrp = s.ngrp := rfl
@[simp] theorem State.reject_width (s : State) : s.reject.width = s.width := rfl
@[simp] theorem State.reject_height (s : State) : s.reject.height = s.height := rfl
@[simp] theorem State.reject_depth (s : State) : s.reject.depth = s.depth := rfl
@[simp] theorem State.reject_h (s : State) : s.reject.h = s.h := rfl
@[simp] theorem State.reject_pix (s : State) : s.reject.pix = s.pix := rfl
@[simp] theorem State.reject_plane (s : State) : s.reject.plane = s.plane := rfl
@[simp] theorem State.reject_cfg (s : State) : s.reject.cfg = s.cfg := rfl
@[simp] theorem State.reject_input (s : State) : s.reject.input = s.input := rfl
@[simp] theorem State.reject_rsp (s : State) : s.reject.rsp = some ⟨false, 0#64⟩ := rfl
@[simp] theorem State.reject_lanes (s : State) : s.reject.lanes = s.lanes := rfl
@[simp] theorem State.reject_freeCount (s : State) : s.reject.freeCount = s.freeCount := rfl

@[simp] theorem State.raise_fsm (s : State) (e : RequestError) : (s.raise e).fsm = .error := rfl
@[simp] theorem State.raise_err (s : State) (e : RequestError) : (s.raise e).err = some e := rfl
@[simp] theorem State.raise_phase (s : State) (e : RequestError) : (s.raise e).phase = s.phase := rfl
@[simp] theorem State.raise_ngrp (s : State) (e : RequestError) : (s.raise e).ngrp = s.ngrp := rfl
@[simp] theorem State.raise_width (s : State) (e : RequestError) : (s.raise e).width = s.width := rfl
@[simp] theorem State.raise_height (s : State) (e : RequestError) : (s.raise e).height = s.height := rfl
@[simp] theorem State.raise_depth (s : State) (e : RequestError) : (s.raise e).depth = s.depth := rfl
@[simp] theorem State.raise_pix (s : State) (e : RequestError) : (s.raise e).pix = [] := rfl
@[simp] theorem State.raise_plane (s : State) (e : RequestError) : (s.raise e).plane = s.plane := rfl
@[simp] theorem State.raise_cfg (s : State) (e : RequestError) : (s.raise e).cfg = s.cfg := rfl
@[simp] theorem State.raise_input (s : State) (e : RequestError) : (s.raise e).input = s.input := rfl
@[simp] theorem State.raise_rsp (s : State) (e : RequestError) : (s.raise e).rsp = some ⟨true, e.code.setWidth 64⟩ := rfl
@[simp] theorem State.raise_lanes (s : State) (e : RequestError) : (s.raise e).lanes = s.lanes := rfl
@[simp] theorem State.raise_freeCount (s : State) (e : RequestError) : (s.raise e).freeCount = s.freeCount + 4 := rfl

@[simp] theorem State.hardReset_fsm (s : State) : s.hardReset.fsm = .idle := rfl
@[simp] theorem State.hardReset_err (s : State) : s.hardReset.err = none := rfl
@[simp] theorem State.hardReset_phase (s : State) : s.hardReset.phase = 0#3 := rfl
@[simp] theorem State.hardReset_ngrp (s : State) : s.hardReset.ngrp = 0#64 := rfl
@[simp] theorem State.hardReset_width (s : State) : s.hardReset.width = 0#32 := rfl
@[simp] theorem State.hardReset_height (s : State) : s.hardReset.height = 0#32 := rfl
@[simp] theorem State.hardReset_depth (s : State) : s.hardReset.depth = 0#8 := rfl
@[simp] theorem State.hardReset_h (s : State) : s.hardReset.h = ⟨0#8, 0#8, 0#8, 0#8⟩ := rfl
@[simp] theorem State.hardReset_pix (s : State) : s.hardReset.pix = [] := rfl
@[simp] theorem State.hardReset_plane (s : State) : s.hardReset.plane = none := rfl
@[simp] theorem State.hardReset_cfg (s : State) : s.hardReset.cfg = s.cfg := rfl
@[simp] theorem State.hardReset_input (s : State) : s.hardReset.input = s.input := rfl
@[simp] theorem State.hardReset_rsp (s : State) : s.hardReset.rsp = none := rfl
@[simp] theorem State.hardReset_lanes (s : State) : s.hardReset.lanes = none := rfl
@[simp] theorem State.hardReset_freeCount (s : State) : s.hardReset.freeCount = s.freeCount := rfl

@[simp] theorem State.present_fsm (s : State) (r : Raw) : (s.present r).fsm = s.fsm := rfl
@[simp] theorem State.present_err (s : State) (r : Raw) : (s.present r).err = s.err := rfl
@[simp] theorem State.present_phase (s : State) (r : Raw) : (s.present r).phase = s.phase := rfl
@[simp] theorem State.present_ngrp (s : State) (r : Raw) : (s.present r).ngrp = s.ngrp := rfl
@[simp] theorem State.present_width (s : State) (r : Raw) : (s.present r).width = s.width := rfl
@[simp] theorem State.present_height (s : State) (r : Raw) : (s.present r).height = s.height := rfl
@[simp] theorem State.present_depth (s : State) (r : Raw) : (s.present r).depth = s.depth := rfl
@[simp] theorem State.present_h (s : State) (r : Raw) : (s.present r).h = s.h := rfl
@[simp] theorem State.present_pix (s : State) (r : Raw) : (s.present r).pix = s.pix := rfl
@[simp] theorem State.present_plane (s : State) (r : Raw) : (s.present r).plane = s.plane := rfl
@[simp] theorem State.present_cfg (s : State) (r : Raw) : (s.present r).cfg = s.cfg := rfl
@[simp] theorem State.present_input (s : State) (r : Raw) : (s.present r).input = .word r :: s.input := rfl
@[simp] theorem State.present_rsp (s : State) (r : Raw) : (s.present r).rsp = s.rsp := rfl
@[simp] theorem State.present_lanes (s : State) (r : Raw) : (s.present r).lanes = s.lanes := rfl
@[simp] theorem State.present_freeCount (s : State) (r : Raw) : (s.present r).freeCount = s.freeCount := rfl

@[simp] theorem State.acknowledge_fsm (s : State) : s.acknowledge.fsm = .idle := rfl
@[simp] theorem State.acknowledge_err (s : State) : s.acknowledge.err = none := rfl
@[simp] theorem State.acknowledge_phase (s : State) : s.acknowledge.phase = 0#3 := rfl
@[simp] theorem State.acknowledge_ngrp (s : State) : s.acknowledge.ngrp = 0#64 := rfl
@[simp] theorem State.acknowledge_width (s : State) : s.acknowledge.width = s.width := by
  unfold State.acknowledge; split <;> rfl
@[simp] theorem State.acknowledge_height (s : State) : s.acknowledge.height = s.height := by
  unfold State.acknowledge; split <;> rfl
@[simp] theorem State.acknowledge_depth (s : State) : s.acknowledge.depth = s.depth := by
  unfold State.acknowledge; split <;> rfl
@[simp] theorem State.acknowledge_pix (s : State) : s.acknowledge.pix = [] := rfl
@[simp] theorem State.acknowledge_plane (s : State) : s.acknowledge.plane = none := rfl
@[simp] theorem State.acknowledge_cfg (s : State) : s.acknowledge.cfg = s.cfg := by
  unfold State.acknowledge; split <;> rfl
@[simp] theorem State.acknowledge_input (s : State) : s.acknowledge.input = s.input := by
  unfold State.acknowledge; split <;> rfl
@[simp] theorem State.acknowledge_rsp (s : State) : s.acknowledge.rsp = s.rsp := by
  unfold State.acknowledge; split <;> rfl
@[simp] theorem State.acknowledge_lanes (s : State) : s.acknowledge.lanes = s.lanes := by
  unfold State.acknowledge; split <;> rfl

/-- CLEAR in IDLE leaves H alone, since nothing becomes unspecified there. -/
theorem State.acknowledge_h_idle (s : State) (hs : s.fsm = .idle) : s.acknowledge.h = s.h := by
  simp [State.acknowledge, hs]

theorem State.acknowledge_freeCount_idle (s : State) (hs : s.fsm = .idle) : s.acknowledge.freeCount = s.freeCount := by
  simp [State.acknowledge, hs]

end Sys2Proof.Machine
end

