-- ==== Sys2Proof/Laws/Exec.lean ====
section
/-! SUPPORT. Everything a step can do: one inversion lemma per operation and one for the step. -/
namespace Sys2Proof.Machine

theorem execNop_next {s t : State} (h : execNop s = .next t) : t = s.accept 0#64 := by
  simpa [execNop] using h.symm

theorem execWrcsr_next {r : Csr} {v : Word32} {s t : State} (h : execWrcsr r v s = .next t) :
    t = s.reject ∨ (s.fsm = .idle ∧ ∃ u, s.csrWrite r v = some u ∧ t = u.accept 0#64) := by
  unfold execWrcsr at h
  split at h
  · left; simpa using h.symm
  · split at h
    · left; simpa using h.symm
    · rename_i hs _ u hu; right; exact ⟨not_not.mp hs, u, hu, by simpa using h.symm⟩

/-- What a write of a control register can be. -/
theorem State.csrWrite_some {s u : State} {r : Csr} {v : Word32} (h : s.csrWrite r v = some u) :
    (r = .width ∧ u = { s with width := v }) ∨ (r = .height ∧ u = { s with height := v }) ∨
      (r = .depth ∧ u = { s with depth := depthOperand v }) := by
  cases r <;> simp_all [State.csrWrite]

theorem execRdcsr_next {r : Csr} {s t : State} (h : execRdcsr r s = .next t) :
    (s.csrRead r = none ∧ t = s.reject) ∨ ∃ v, s.csrRead r = some v ∧ t = s.accept v := by
  unfold execRdcsr at h
  split at h
  · left; exact ⟨by assumption, by simpa using h.symm⟩
  · right; exact ⟨_, by assumption, by simpa using h.symm⟩

theorem execStart_next {s t : State} (h : execStart s = .next t) :
    (¬(s.fsm = .idle ∧ s.cfg.fits s.planeSize = true) ∧ t = s.reject) ∨
      (s.fsm = .idle ∧ s.cfg.fits s.planeSize = true ∧
        t = State.accept { s with phase := 0#3, ngrp := 0#64, err := none, fsm := .run } 0#64) := by
  unfold execStart at h
  split at h
  · left; exact ⟨by simp_all, by simpa using h.symm⟩
  · split at h
    · right; exact ⟨by simp_all, by assumption, by simpa using h.symm⟩
    · left; exact ⟨by simp_all, by simpa using h.symm⟩

theorem execPush_next {v : Byte} {s t : State} (h : execPush v s = .next t) :
    (s.fsm ≠ .run ∧ t = s.reject) ∨
      (s.fsm = .run ∧ s.phase.toNat < 4 ∧
        t = State.accept { s with h := s.h.set s.phase.toNat v, phase := s.phase + 1#3 } 0#64) ∨
      (s.fsm = .run ∧ 4 ≤ s.phase.toNat ∧
        t = State.accept
          { s with
            pix := storeQuad s.cfg s.pix s.pixelCount (Machine.extract s.h.b0 s.h.b1 s.h.b2 s.h.b3 v)
            ngrp := saturatingSucc s.ngrp
            phase := 0#3 } 0#64) := by
  unfold execPush at h
  split at h
  · left; exact ⟨by assumption, by simpa using h.symm⟩
  · split at h
    · right; left; exact ⟨by simp_all, by assumption, by simpa using h.symm⟩
    · right; right; exact ⟨by simp_all, by omega, by simpa using h.symm⟩

theorem execEndReq_next {s t : State} (h : execEndReq s = .next t) :
    (s.fsm ≠ .run ∧ t = s.reject) ∨
      (s.fsm = .run ∧ ∃ e, e ≠ .unsupportedBayerOrder ∧ t = s.raise e) ∨
      (s.fsm = .run ∧ s.phase = 0#3 ∧ s.ngrp ≠ 0#64 ∧ s.width ≠ 0#32 ∧ s.height ≠ 0#32 ∧ s.pixelCount = s.planeSize ∧
        ∃ d p, legalDepth? s.depth = some d ∧ planeCells s.pix d 0 s.planeSize = some p ∧
          t = State.accept { s with fsm := .done, plane := some p } 0#64) := by
  unfold execEndReq at h
  split at h
  · left; exact ⟨by assumption, by simpa using h.symm⟩
  · rename_i h0
    have h0 : s.fsm = .run := not_not.mp h0
    right
    split at h
    · left; exact ⟨h0, .invalidBufferLength, by decide, by simpa using h.symm⟩
    · rename_i h1
      push Not at h1
      split at h
      · left; exact ⟨h0, .shapeMismatch, by decide, by simpa using h.symm⟩
      · rename_i h2
        push Not at h2
        split at h
        · left; exact ⟨h0, .depthOutOfRange, by decide, by simpa using h.symm⟩
        · split at h
          · cases h
          · right
            exact ⟨h0, h1.1, h1.2, h2.1, h2.2.1, h2.2.2, _, _, by assumption, by assumption, by simpa using h.symm⟩

theorem execRdpix_next {row col : Word32} {s t : State} (h : execRdpix row col s = .next t) :
    t = s.reject ∨ (s.fsm = .done ∧ row.toNat < s.height.toNat ∧ col.toNat < s.width.toNat ∧
      ∃ v, s.planeRead row.toNat col.toNat = some v ∧ t = s.accept (v.setWidth 64)) := by
  unfold execRdpix at h
  split at h
  · left; simpa using h.symm
  · split at h
    · left; simpa using h.symm
    · rename_i h0 h1
      split at h
      · cases h
      · right; exact ⟨not_not.mp h0, by omega, by omega, _, by assumption, by simpa using h.symm⟩

theorem execClear_next {s t : State} (h : execClear s = .next t) :
    (s.fsm = .run ∧ t = s.reject) ∨ (s.fsm ≠ .run ∧ t = s.acknowledge.accept 0#64) := by
  unfold execClear at h
  split at h
  · left; exact ⟨by assumption, by simpa using h.symm⟩
  · right; exact ⟨by assumption, by simpa using h.symm⟩

theorem execExtract_next {b0 b1 b2 b3 b4 : Byte} {s t : State} (h : execExtract b0 b1 b2 b3 b4 s = .next t) :
    t = { s with lanes := some (Machine.extract b0 b1 b2 b3 b4) } := by
  simpa [execExtract] using h.symm

/-- Everything a step can be: it waits, resets, rejects a reserved code, or performs the decoded operation. -/
theorem step_cases (s : State) :
    (s.input = [] ∧ step s = .next s) ∨
      (∃ rest, s.input = .reset :: rest ∧ step s = .next (State.hardReset { s with input := rest })) ∨
      (∃ r e rest, s.input = .word r :: rest ∧ decode r = .error e ∧
        step s = .next (State.reject { s with input := rest })) ∨
      ∃ r i rest, s.input = .word r :: rest ∧ decode r = .ok i ∧ step s = exec i { s with input := rest } := by
  unfold step State.advance
  split
  · exact .inl ⟨by assumption, rfl⟩
  · right; left; exact ⟨_, by assumption, rfl⟩
  · rename_i r rest hin
    right; right
    cases hd : decode r with
    | error e => left; exact ⟨r, e, rest, hin, hd, by simp [State.perform, hd]⟩
    | ok i => right; exact ⟨r, i, rest, hin, hd, by simp [State.perform, hd]⟩

theorem step_word {s : State} {r : Raw} {i : Instr} {rest : List Input} (hin : s.input = .word r :: rest)
    (hd : decode r = .ok i) : step s = exec i { s with input := rest } := by
  simp [step, State.advance, hin, State.perform, hd]

/-- A command word decodes to the eight commands only; the group format decodes to EXTRACT only. -/
theorem decode_command_ne_extract {w : CmdWord} {b0 b1 b2 b3 b4 : Byte} :
    decode (.command w) ≠ .ok (.extract b0 b1 b2 b3 b4) := by
  simp only [decode, decodeCommand]
  split <;> simp

end Sys2Proof.Machine
end

