-- ==== Sys2Proof/Laws/Effect.lean ====
section
/-! SUPPORT. Everything an operation can do to the state, as one case analysis for proofs over all operations, and the four
ways END can end. -/
namespace Sys2Proof.Machine

/-- END with an incomplete group, or with none. -/
theorem execEndReq_length {s : State} (h : s.fsm = .run) (h1 : s.phase ≠ 0#3 ∨ s.ngrp = 0#64) :
    execEndReq s = .next (s.raise .invalidBufferLength) := by
  unfold execEndReq; rw [if_neg (by simp [h]), if_pos h1]

/-- END with complete groups that do not make the plane. -/
theorem execEndReq_shape {s : State} (h : s.fsm = .run) (h1 : ¬(s.phase ≠ 0#3 ∨ s.ngrp = 0#64))
    (h2 : s.width = 0#32 ∨ s.height = 0#32 ∨ s.pixelCount ≠ s.planeSize) :
    execEndReq s = .next (s.raise .shapeMismatch) := by
  unfold execEndReq; rw [if_neg (by simp [h]), if_neg h1, if_pos h2]

/-- END with the right shape and a depth out of range. -/
theorem execEndReq_depth {s : State} (h : s.fsm = .run) (h1 : ¬(s.phase ≠ 0#3 ∨ s.ngrp = 0#64))
    (h2 : ¬(s.width = 0#32 ∨ s.height = 0#32 ∨ s.pixelCount ≠ s.planeSize)) (h3 : s.depth.toNat = 0 ∨ 10 < s.depth.toNat) :
    execEndReq s = .next (s.raise .depthOutOfRange) := by
  unfold execEndReq; rw [if_neg (by simp [h]), if_neg h1, if_neg h2, (legalDepth?_eq_none _).mpr h3]

/-- END with everything in order. -/
theorem execEndReq_plane {s : State} (h : s.fsm = .run) (h1 : ¬(s.phase ≠ 0#3 ∨ s.ngrp = 0#64))
    (h2 : ¬(s.width = 0#32 ∨ s.height = 0#32 ∨ s.pixelCount ≠ s.planeSize)) (h3 : 1 ≤ s.depth.toNat ∧ s.depth.toNat ≤ 10) :
    execEndReq s = match planeCells s.pix ⟨s.depth.toNat, h3⟩ 0 s.planeSize with
      | none => .fault .unwrittenPixel
      | some cells => .next (State.accept { s with fsm := .done, plane := some cells } 0#64) := by
  unfold execEndReq; rw [if_neg (by simp [h]), if_neg h1, if_neg h2, legalDepth?_of_legal _ h3] <;> rfl

/-- `Effect s i t`: what the operation `i` can leave when it answers a next state, case by case. -/
inductive Effect (s : State) : Instr → State → Prop
  /-- Rejected, or a command without effect, or EXTRACT: only the response or the lanes change. -/
  | same (i r l) : (∀ v, i = .push v → s.fsm ≠ .run) → (i = .endReq → s.fsm ≠ .run) → (i = .clear → s.fsm = .run) →
      Effect s i { s with rsp := r, lanes := l }
  | width (r v w) : s.fsm = .idle → Effect s (.wrcsr r v) { s with width := w, rsp := some ⟨true, 0#64⟩ }
  | height (r v w) : s.fsm = .idle → Effect s (.wrcsr r v) { s with height := w, rsp := some ⟨true, 0#64⟩ }
  | depth (r v w) : s.fsm = .idle → Effect s (.wrcsr r v) { s with depth := w, rsp := some ⟨true, 0#64⟩ }
  | start : s.fsm = .idle → s.cfg.fits s.planeSize = true →
      Effect s .start (State.accept { s with phase := 0#3, ngrp := 0#64, err := none, fsm := .run } 0#64)
  | hold (v) : s.fsm = .run → s.phase.toNat < 4 →
      Effect s (.push v) (State.accept { s with h := s.h.set s.phase.toNat v, phase := s.phase + 1#3 } 0#64)
  | group (v) : s.fsm = .run → 4 ≤ s.phase.toNat →
      Effect s (.push v) (State.accept
        { s with
          pix := storeQuad s.cfg s.pix s.pixelCount (Machine.extract s.h.b0 s.h.b1 s.h.b2 s.h.b3 v)
          ngrp := saturatingSucc s.ngrp
          phase := 0#3 } 0#64)
  | raise (e) : s.fsm = .run → e ≠ .unsupportedBayerOrder → Effect s .endReq (s.raise e)
  | done (d p) : s.fsm = .run → s.phase = 0#3 → s.ngrp ≠ 0#64 → s.width ≠ 0#32 → s.height ≠ 0#32 →
      s.pixelCount = s.planeSize → legalDepth? s.depth = some d → planeCells s.pix d 0 s.planeSize = some p →
      Effect s .endReq (State.accept { s with fsm := .done, plane := some p } 0#64)
  | clear : s.fsm ≠ .run → Effect s .clear (s.acknowledge.accept 0#64)

theorem exec_effect {i : Instr} {s t : State} (h : exec i s = .next t) : Effect s i t := by
  cases i <;> simp only [exec] at h
  case nop => rw [execNop_next h]; exact .same _ _ _ (by simp) (by simp) (by simp)
  case wrcsr r v =>
    rcases execWrcsr_next h with rfl | ⟨hs, u, hu, rfl⟩
    · exact .same _ _ _ (by simp) (by simp) (by simp)
    · rcases State.csrWrite_some hu with ⟨-, rfl⟩ | ⟨-, rfl⟩ | ⟨-, rfl⟩
      · exact .width _ _ _ hs
      · exact .height _ _ _ hs
      · exact .depth _ _ _ hs
  case rdcsr =>
    rcases execRdcsr_next h with ⟨-, rfl⟩ | ⟨v, -, rfl⟩ <;> exact .same _ _ _ (by simp) (by simp) (by simp)
  case start =>
    rcases execStart_next h with ⟨-, rfl⟩ | ⟨h1, h2, rfl⟩
    · exact .same _ _ _ (by simp) (by simp) (by simp)
    · exact .start h1 h2
  case push =>
    rcases execPush_next h with ⟨h1, rfl⟩ | ⟨h1, h2, rfl⟩ | ⟨h1, h2, rfl⟩
    · exact .same _ _ _ (by simp [h1]) (by simp) (by simp)
    · exact .hold _ h1 h2
    · exact .group _ h1 h2
  case endReq =>
    rcases execEndReq_next h with ⟨h1, rfl⟩ | ⟨h1, e, h2, rfl⟩ | ⟨h1, h2, h3, h4, h5, h6, d, p, h7, h8, rfl⟩
    · exact .same _ _ _ (by simp) (by simp [h1]) (by simp)
    · exact .raise e h1 h2
    · exact .done d p h1 h2 h3 h4 h5 h6 h7 h8
  case rdpix =>
    rcases execRdpix_next h with rfl | ⟨-, -, -, v, -, rfl⟩ <;> exact .same _ _ _ (by simp) (by simp) (by simp)
  case clear =>
    rcases execClear_next h with ⟨h1, rfl⟩ | ⟨h1, rfl⟩
    · exact .same _ _ _ (by simp) (by simp) (by simp [h1])
    · exact .clear h1
  case extract => rw [execExtract_next h]; exact .same _ _ _ (by simp) (by simp) (by simp)

/-- Everything a step that answers a next state can be. -/
theorem step_next {s t : State} (h : step s = .next t) :
    (s.input = [] ∧ t = s) ∨
    (∃ rest, s.input = .reset :: rest ∧ t = State.hardReset { s with input := rest }) ∨
    (∃ r e rest, s.input = .word r :: rest ∧ decode r = .error e ∧ t = State.reject { s with input := rest }) ∨
    ∃ r i rest, s.input = .word r :: rest ∧ decode r = .ok i ∧ Effect { s with input := rest } i t := by
  rcases step_cases s with ⟨h1, h2⟩ | ⟨rest, h1, h2⟩ | ⟨r, e, rest, h1, h2, h3⟩ | ⟨r, i, rest, h1, h2, h3⟩
  · rw [h2] at h; cases h; exact .inl ⟨h1, rfl⟩
  · rw [h2] at h; cases h; exact .inr (.inl ⟨rest, h1, rfl⟩)
  · rw [h3] at h; cases h; exact .inr (.inr (.inl ⟨r, e, rest, h1, h2, rfl⟩))
  · rw [h3] at h; exact .inr (.inr (.inr ⟨r, i, rest, h1, h2, exec_effect h⟩))

/-- A state whose next input is a command takes the decoded command and no other. -/
theorem State.takesCommand_iff {s : State} {w : CmdWord} {rest : List Input} {i j : Instr}
    (hin : s.input = .word (.command w) :: rest) (hd : decode (.command w) = .ok i) : s.takesCommand j ↔ i = j := by
  constructor
  · rintro ⟨w', rest', h1, h2⟩
    rw [hin] at h1; cases h1; rw [hd] at h2; cases h2; rfl
  · rintro rfl; exact ⟨w, rest, hin, hd⟩

end Sys2Proof.Machine
end

