-- ==== Sys2Proof/Laws/Ops.lean ====
section
/-! SUPPORT. One lemma for each shared computation, as numbers: the capacity tests, STATUS, the group counter, a pixel. -/
namespace Sys2Proof.Machine

/-- A plane fits unless PIXCAP is a number below its size (R134). -/
theorem fits_iff (c : Config) (n : Nat) : c.fits n = true ↔ ∀ cap, c.pixcap = some cap → n ≤ cap := by
  unfold Config.fits
  split <;> simp_all

/-- PIX has an index unless PIXCAP is a number not above it (R96). -/
theorem holds_iff (c : Config) (i : Nat) : c.holds i = true ↔ ∀ cap, c.pixcap = some cap → i < cap := by
  unfold Config.holds
  split <;> simp_all

/-- Every sample index of a plane that fits is one PIX has. -/
theorem holds_of_fits {c : Config} {n i : Nat} (h : c.fits n = true) (hi : i < n) : c.holds i = true := by
  rw [holds_iff]
  intro cap hc
  have := (fits_iff c n).mp h cap hc
  omega

/-- STATUS as a number (R135). -/
theorem status_toNat (s : State) :
    s.status.toNat = s.phase.toNat * 256 + (errCode s.err).toNat * 16 + s.fsm.code.toNat := by
  have h1 : (s.phase ++ (0 : BitVec 1)).toNat = s.phase.toNat * 2 ^ 1 + 0 := toNat_append_eq_add _ _
  have h2 : (s.phase ++ (0 : BitVec 1) ++ errCode s.err).toNat =
      (s.phase ++ (0 : BitVec 1)).toNat * 2 ^ 3 + (errCode s.err).toNat := toNat_append_eq_add _ _
  have h3 : (s.phase ++ (0 : BitVec 1) ++ errCode s.err ++ (0 : BitVec 2)).toNat =
      (s.phase ++ (0 : BitVec 1) ++ errCode s.err).toNat * 2 ^ 2 + 0 := toNat_append_eq_add _ _
  have h4 : s.status.toNat =
      (s.phase ++ (0 : BitVec 1) ++ errCode s.err ++ (0 : BitVec 2)).toNat * 2 ^ 2 + s.fsm.code.toNat :=
    toNat_append_eq_add _ _
  omega

/-- The group counter saturates (R25). -/
theorem saturatingSucc_toNat (n : Word64) : (saturatingSucc n).toNat = min (n.toNat + 1) (2 ^ 64 - 1) := by
  unfold saturatingSucc
  have := n.isLt
  split
  · rename_i h; subst h; rfl
  · rename_i h
    have : n.toNat ≠ 2 ^ 64 - 1 := fun e => h (BitVec.eq_of_toNat_eq (by simpa using e))
    have h1 : (1#64).toNat = 1 := rfl
    rw [BitVec.toNat_add, h1]
    omega

/-- A pixel as a number: four times its byte plus its two bits (R90). -/
theorem lanePixel_toNat (x b : Byte) (k : Nat) : (lanePixel x b k).toNat = 4 * x.toNat + b.toNat / 4 ^ k % 4 := by
  have h1 : (x.setWidth 16 <<< 2 : Pixel).toNat = x.toNat <<< 2 := by
    have := x.isLt
    simp only [BitVec.toNat_shiftLeft, BitVec.toNat_setWidth, Nat.shiftLeft_eq]
    omega
  have h2 : (((b >>> (2 * k)) &&& 3).setWidth 16 : Pixel).toNat = b.toNat / 4 ^ k % 4 := by
    have h3 : ((b >>> (2 * k)) &&& 3 : Byte).toNat = b.toNat / 4 ^ k % 4 := by
      rw [BitVec.toNat_and, BitVec.toNat_ushiftRight, Nat.shiftRight_eq_div_pow, pow_mul]
      exact Nat.and_two_pow_sub_one_eq_mod _ 2
    rw [BitVec.toNat_setWidth, h3]
    omega
  unfold lanePixel
  rw [BitVec.toNat_or, h1, h2, ← Nat.shiftLeft_add_eq_or_of_lt (by omega), Nat.shiftLeft_eq]
  omega

/-- Every pixel of a group is at most 1023 (R92). -/
theorem extract_le (b0 b1 b2 b3 b4 : Byte) : ∀ p ∈ (extract b0 b1 b2 b3 b4).toList, p.toNat ≤ 1023 := by
  intro p hp
  have h := fun x : Byte => x.isLt
  simp only [extract, Quad.toList, List.mem_cons, List.not_mem_nil, or_false] at hp
  have h0 := h b0
  have h1 := h b1
  have h2 := h b2
  have h3 := h b3
  rcases hp with rfl | rfl | rfl | rfl <;> rw [lanePixel_toNat] <;> omega

/-- A holding register read after a write. -/
theorem Hold.get_set (h : Hold) (i j : Nat) (v : Byte) (hi : i < 4) (hj : j < 4) :
    (h.set i v).get j = if j = i then v else h.get j := by
  match i, j, hi, hj with
  | 0, 0, _, _ | 0, 1, _, _ | 0, 2, _, _ | 0, 3, _, _ => rfl
  | 1, 0, _, _ | 1, 1, _, _ | 1, 2, _, _ | 1, 3, _, _ => rfl
  | 2, 0, _, _ | 2, 1, _, _ | 2, 2, _, _ | 2, 3, _, _ => rfl
  | 3, 0, _, _ | 3, 1, _, _ | 3, 2, _, _ | 3, 3, _, _ => rfl

end Sys2Proof.Machine
end

