-- ==== Sys2Proof/Laws/PerInstr.lean ====
section
/-! SUPPORT. One fact about every constructor of the syntax: its canonical encoding has the format, the operation code and
the zero bits the opcode table gives its row. -/
namespace Sys2Proof.Laws.EncodingMatchesTable

/-- The canonical encoding of `i` is a word of its row's format with its row's operation code (R76), every operand bit the
row does not use being 0 (R75); EXTRACT is a group word with its five bytes in the places of R70. -/
def Statement (i : Instr) : Prop :=
  match i with
  | .nop => encode i = .command 0
  | .wrcsr r v => ∃ w, encode i = .command w ∧ w.toNat = 1 * 2 ^ 64 + r.number.toNat * 2 ^ 32 + v.toNat
  | .rdcsr r => ∃ w, encode i = .command w ∧ w.toNat = 2 * 2 ^ 64 + r.number.toNat * 2 ^ 32
  | .start => ∃ w, encode i = .command w ∧ w.toNat = 3 * 2 ^ 64
  | .push byte => ∃ w, encode i = .command w ∧ w.toNat = 4 * 2 ^ 64 + byte.toNat
  | .endReq => ∃ w, encode i = .command w ∧ w.toNat = 5 * 2 ^ 64
  | .rdpix row col => ∃ w, encode i = .command w ∧ w.toNat = 6 * 2 ^ 64 + row.toNat * 2 ^ 32 + col.toNat
  | .clear => ∃ w, encode i = .command w ∧ w.toNat = 7 * 2 ^ 64
  | .extract b0 b1 b2 b3 b4 => ∃ g, encode i = .group g ∧
      g.toNat = b0.toNat * 2 ^ 32 + b1.toNat * 2 ^ 24 + b2.toNat * 2 ^ 16 + b3.toNat * 2 ^ 8 + b4.toNat

/-- The value of a command word by its three fields (R72). -/
theorem commandWord_toNat (op : BitVec 4) (a b : Word32) :
    (commandWord op a b).toNat = op.toNat * 2 ^ 64 + a.toNat * 2 ^ 32 + b.toNat := by
  have := a.isLt
  have := b.isLt
  simp only [commandWord, BitVec.toNat_append]
  rw [← Nat.shiftLeft_add_eq_or_of_lt a.isLt, ← Nat.shiftLeft_add_eq_or_of_lt b.isLt]
  simp only [Nat.shiftLeft_eq]
  omega

theorem nop : Statement .nop := rfl

theorem wrcsr (r : Csr) (v : Word32) : Statement (.wrcsr r v) :=
  ⟨_, rfl, commandWord_toNat 1 r.number v⟩

theorem rdcsr (r : Csr) : Statement (.rdcsr r) :=
  ⟨_, rfl, (commandWord_toNat 2 r.number 0).trans (by simp)⟩

theorem start : Statement .start := ⟨_, rfl, rfl⟩

theorem push (byte : Byte) : Statement (.push byte) := by
  refine ⟨_, rfl, ?_⟩
  have := byte.isLt
  simp [commandWord_toNat]
  omega

theorem endReq : Statement .endReq := ⟨_, rfl, rfl⟩

theorem rdpix (row col : Word32) : Statement (.rdpix row col) :=
  ⟨_, rfl, commandWord_toNat 6 row col⟩

theorem clear : Statement .clear := ⟨_, rfl, rfl⟩

theorem extract (b0 b1 b2 b3 b4 : Byte) : Statement (.extract b0 b1 b2 b3 b4) := by
  refine ⟨_, rfl, ?_⟩
  have := b1.isLt
  have := b2.isLt
  have := b3.isLt
  have := b4.isLt
  simp only [groupWord, BitVec.toNat_append]
  rw [← Nat.shiftLeft_add_eq_or_of_lt b1.isLt, ← Nat.shiftLeft_add_eq_or_of_lt b2.isLt,
    ← Nat.shiftLeft_add_eq_or_of_lt b3.isLt, ← Nat.shiftLeft_add_eq_or_of_lt b4.isLt]
  simp only [Nat.shiftLeft_eq]
  omega

end Sys2Proof.Laws.EncodingMatchesTable
end

