-- ==== Sys2Proof/Laws/Unpack.lean ====
section
/-! SUPPORT. The pixels of a buffer: their range and the place of each. -/
namespace Sys2Proof.Machine

/-- Every pixel of a buffer fits in 10 bits (R94). -/
theorem groupPixels_le : ∀ buf : List Byte, ∀ p ∈ groupPixels buf, p.toNat ≤ 1023
  | b0 :: b1 :: b2 :: b3 :: b4 :: rest => by
    intro p hp
    simp only [groupPixels, List.mem_append] at hp
    rcases hp with hp | hp
    · exact extract_le _ _ _ _ _ p hp
    · exact groupPixels_le rest p hp
  | [] => by simp [groupPixels]
  | [_] => by simp [groupPixels]
  | [_, _] => by simp [groupPixels]
  | [_, _, _] => by simp [groupPixels]
  | [_, _, _, _] => by simp [groupPixels]

/-- Pixel k of group g stands at index `4g + k` (R93). -/
theorem groupPixels_get : ∀ (buf : List Byte) (g : Nat) (b0 b1 b2 b3 b4 : Byte),
        buf[5 * g]? = some b0 → buf[5 * g + 1]? = some b1 → buf[5 * g + 2]? = some b2 →
        buf[5 * g + 3]? = some b3 → buf[5 * g + 4]? = some b4 →
        ∀ k, k < 4 → (groupPixels buf)[4 * g + k]? = (Machine.extract b0 b1 b2 b3 b4).toList[k]?
  | c0 :: c1 :: c2 :: c3 :: c4 :: rest, g, b0, b1, b2, b3, b4 => by
    intro h0 h1 h2 h3 h4 k hk
    cases g with
    | zero =>
      simp at h0 h1 h2 h3 h4
      subst h0 h1 h2 h3 h4
      simp only [groupPixels]
      rw [List.getElem?_append_left (by simp [Quad.toList_length, hk])]; simp
    | succ g =>
      have e : ∀ j, 5 * (g + 1) + j = (5 * g + j) + 5 := by intro j; omega
      have e0 : 5 * (g + 1) = (5 * g) + 5 := by omega
      simp only [e] at h1 h2 h3 h4
      rw [e0] at h0
      simp only [List.getElem?_cons_succ] at h0 h1 h2 h3 h4
      simp only [groupPixels]
      rw [List.getElem?_append_right (by simp [Quad.toList_length]; omega), Quad.toList_length]
      have : 4 * (g + 1) + k - 4 = 4 * g + k := by omega
      rw [this]
      exact groupPixels_get rest g _ _ _ _ _ h0 h1 h2 h3 h4 k hk
  | [], _, _, _, _, _, _ => by simp
  | [_], g, _, _, _, _, _ => by
    intro _ h1; rw [List.getElem?_eq_none (by simp)] at h1; cases h1
  | [_, _], g, _, _, _, _, _ => by
    intro _ _ h1; rw [List.getElem?_eq_none (by simp)] at h1; cases h1
  | [_, _, _], g, _, _, _, _, _ => by
    intro _ _ _ h1; rw [List.getElem?_eq_none (by simp)] at h1; cases h1
  | [_, _, _, _], g, _, _, _, _, _ => by
    intro _ _ _ _ h1; rw [List.getElem?_eq_none (by simp)] at h1; cases h1

end Sys2Proof.Machine
end

