-- ==== Sys2Proof/Tests/Slice0.lean ====
section
/-! SUPPORT. Small tests of single steps, every expected value taken from spec/95_test_vectors.md (named by its V or P
number), and for each statement with hypotheses a concrete case that meets them. -/
namespace Sys2Proof.Tests

open Sys2Proof.Machine

/-! ### Decoding: words written out from 30_encoding.md and 95_test_vectors.md -/

theorem test_decode_nop : decode (.command 0x00000000000000000) = .ok .nop := by decide
theorem test_decode_nop_ignores_operands : decode (.command 0x0FFFFFFFFFFFFFFFF) = .ok .nop := by decide
theorem test_decode_wrcsr_V53 : decode (.command 0x10000000200000108) = .ok (.wrcsr .depth 0x108) := by decide
theorem test_decode_wrcsr_reserved : decode (.command 0x10000000500000001) = .ok (.wrcsr (.reserved 5) 1) := by decide
theorem test_decode_rdcsr_ignores_b : decode (.command 0x200000004FFFFFFFF) = .ok (.rdcsr .ngrp) := by decide
theorem test_decode_start : decode (.command 0x30000000000000000) = .ok .start := by decide
theorem test_decode_push_V67 : decode (.command 0x400000000000001E4) = .ok (.push 0xE4) := by decide
theorem test_decode_end : decode (.command 0x50000000000000000) = .ok .endReq := by decide
theorem test_decode_rdpix : decode (.command 0x60000000100000003) = .ok (.rdpix 1 3) := by decide
theorem test_decode_clear : decode (.command 0x70000000000000000) = .ok .clear := by decide
theorem test_decode_reserved_V56 : decode (.command 0x80000000000000000) = .error (.reservedOp 8) := by decide
theorem test_decode_reserved_V57 : decode (.command 0xFFFFFFFFFFFFFFFFF) = .error (.reservedOp 15) := by decide
theorem test_decode_group_V1 : decode (.group 0xFF00AA55E4) = .ok (.extract 0xFF 0x00 0xAA 0x55 0xE4) := by decide

theorem test_table_word_start : decodeTableWord 68 0x30000000000000000 = some .start := by decide
theorem test_table_word_reserved : decodeTableWord 68 0x80000000000000000 = none := by decide
theorem test_table_word_group : decodeTableWord 40 0xFF00AA55E4 = some (.extract 0xFF 0x00 0xAA 0x55 0xE4) := by decide

/-! ### Well-formedness: its one check, and terms it refuses -/

theorem test_wellformed_refuses_named_number : ¬(Instr.rdcsr (.reserved 0)).WellFormed := by decide
theorem test_wellformed_refuses_boundary : ¬(Instr.wrcsr (.reserved 4) 1).WellFormed := by decide
theorem test_wellformed_accepts_reserved : (Instr.rdcsr (.reserved 5)).WellFormed := by decide

/-! ### States and views of single steps -/

/-- The four pixels of V1. -/
def pixels : Memory := [(0, 1020), (1, 1), (2, 682), (3, 343)]

/-- The plane of V31: those pixels at depth 8. -/
def samples : Memory := [(0, 255), (1, 0), (2, 170), (3, 85)]

/-- A core in IDLE with a geometry and a depth. -/
def idle (w h : Word32) (d : BitVec 8) : State := { State.reset with width := w, height := h, depth := d }

/-- A core in RUN, its first group received as in V1, `p` bytes of the next one held. -/
def running (p : BitVec 3) (n : Word64) : State :=
  { idle 2 2 8 with fsm := .run, phase := p, ngrp := n, h := ⟨0xFF, 0x00, 0xAA, 0x55⟩, pix := pixels }

/-- A core in DONE with the plane of V31. -/
def done22 : State := { running 0 1 with fsm := .done, plane := some samples }

/-- A core in ERROR. -/
def failed (e : RequestError) (p : BitVec 3) (n : Word64) : State :=
  { idle 2 2 8 with fsm := .error, err := some e, phase := p, ngrp := n }

/-- A pixel store of four words. -/
def small (s : State) : State := { s with cfg := ⟨some 4⟩ }

/-- The host presents the command `w` next. -/
def given (s : State) (w : CmdWord) : State := { s with input := [.word (.command w)] }

def after : Host.Outcome State Fault Refusal → Option State
  | .next t => some t
  | _ => none

/-- What the tables of 95_test_vectors.md show: FSM, PHASE, NGRP, ERR and the response. -/
def view (o : Host.Outcome State Fault Refusal) : Option (Fsm × Nat × Nat × Option RequestError × Option Response) :=
  (after o).map fun t => (t.fsm, t.phase.toNat, t.ngrp.toNat, t.err, t.rsp)

def ok (d : Word64) : Option Response := some ⟨true, d⟩
def rejected : Option Response := some ⟨false, 0⟩

/-! ### One step each -/

theorem test_nop_V49 : view (exec .nop (running 3 0)) = some (.run, 3, 0, none, ok 0) := by decide

theorem test_wrcsr_V53 : after (exec (.wrcsr .depth 0x108) (idle 4 2 0)) =
    some { idle 4 2 8 with rsp := ok 0 } := by decide
theorem test_wrcsr_V50 : after (exec (.wrcsr .width 9) (running 0 0)) =
    some { running 0 0 with rsp := rejected } := by decide

theorem test_rdcsr_V58 : view (exec (.rdcsr .status) (running 2 1)) = some (.run, 2, 1, none, ok 0x201) := by decide
theorem test_rdcsr_V59 : view (exec (.rdcsr .status) (failed .invalidBufferLength 2 1)) =
    some (.error, 2, 1, some .invalidBufferLength, ok 0x213) := by decide

theorem test_start_V66 : after (exec .start (small (idle 4 2 8))) =
    some { small (idle 4 2 8) with rsp := rejected } := by decide
theorem test_start_V66_unbounded : view (exec .start (idle 4 2 8)) = some (.run, 0, 0, none, ok 0) := by decide

theorem test_push_P1 : after (exec (.push 0xE4) { running 4 0 with pix := [] }) =
    some { running 0 1 with rsp := ok 0 } := by decide
theorem test_push_P6 : after (exec (.push 0x9A) (small { running 4 1 with h := ⟨0x12, 0x34, 0x56, 0x78⟩ })) =
    some { small (running 0 2) with h := ⟨0x12, 0x34, 0x56, 0x78⟩, rsp := ok 0 } := by decide

theorem test_end_V31 : after (exec .endReq (running 0 1)) = some { done22 with rsp := ok 0 } := by decide
theorem test_end_V25 : view (exec .endReq (running 0 0)) =
    some (.error, 0, 0, some .invalidBufferLength, ok 1) := by decide

theorem test_rdpix_P4 : view (exec (.rdpix 1 0) done22) = some (.done, 0, 1, none, ok 170) := by decide
theorem test_rdpix_V63 : after (exec (.rdpix 0 2) done22) = some { done22 with rsp := rejected } := by decide

theorem test_clear_P2 : view (exec .clear (failed .invalidBufferLength 2 1)) = some (.idle, 0, 0, none, ok 0) := by decide
theorem test_clear_V51 : after (exec .clear (running 0 0)) = some { running 0 0 with rsp := rejected } := by decide

theorem test_extract_V13 : (after (exec (.extract 0x01 0x02 0x03 0x04 0x1B) State.reset)).map (·.lanes) =
    some (some ⟨7, 10, 13, 16⟩) := by decide
theorem test_extract_V9 : extract 0xFF 0xFF 0xFF 0xFF 0xFF = ⟨1023, 1023, 1023, 1023⟩ := by decide

theorem test_step_reserved_V57 : after (step (given (running 4 1) 0xFFFFFFFFFFFFFFFFF)) =
    some { running 4 1 with rsp := rejected } := by decide
theorem test_step_reset : after (step { done22 with input := [.reset] }) = some State.reset := by decide
theorem test_step_fetched_word : view (step (State.reset.withFetchWord 68 0x30000000000000000)) =
    some (.run, 0, 0, none, ok 0) := by decide
theorem test_step_fetched_group :
    (after (step (State.reset.withFetchWord 40 0xFF00AA55E4))).map (·.lanes) = some (some ⟨1020, 1, 682, 343⟩) := by decide

/-! ### The reference functions -/

theorem test_unpack_V16 : unpack [0xFF, 0x00, 0xAA, 0x55, 0xE4, 0x12, 0x34, 0x56, 0x78, 0x9A] =
    .ok [1020, 1, 682, 343, 74, 210, 345, 482] := by decide
theorem test_unpack_V5 : unpack [0xFF, 0x00, 0xAA, 0x55, 0xE4, 0x01, 0x02] = .error .invalidBufferLength := by decide
theorem test_reduce_V21e : reduce 343 ⟨9, by decide⟩ = 171 ∧ reduce 343 ⟨1, by decide⟩ = 0 := by decide
theorem test_assemble_V30 : assemble [1020, 1, 682, 343, 74, 210, 345, 482, 7, 10, 13, 16] 3 4 8 =
    .ok ⟨4, 3, [[255, 0, 170], [85, 18, 52], [86, 120, 1], [2, 3, 4]]⟩ := by decide
theorem test_assemble_V40 : assemble [1020, 1, 682, 343] 2147483650 2 8 = .error .shapeMismatch := by decide
theorem test_convert_V41 : convert [0xFF, 0x00, 0xAA, 0x55, 0xE4] 2 2 10 = .ok ⟨2, 2, [[1020, 1], [682, 343]]⟩ := by decide
theorem test_convert_V44 : convert [0xFF, 0x00, 0xAA, 0x55, 0xE4, 0x01, 0x02] 4 2 0 =
    .error .invalidBufferLength := by decide

/-! ### Witnesses: for each statement with hypotheses, a case that meets them -/

theorem reads_pixels (i : Nat) : (Memory.read pixels i).isSome = true ↔ i < 4 := by
  simp only [pixels, Memory.read]
  split_ifs <;> simp <;> omega

theorem pixels_range (i : Nat) (v : Pixel) (h : Memory.read pixels i = some v) : v.toNat ≤ 1023 := by
  simp only [pixels, Memory.read] at h
  split_ifs at h <;> simp at h <;> subst h <;> decide

/-- The invariant holds in a DONE state with a plane. -/
theorem done22_inv : done22.Inv where
  phase_legal := by decide
  err_iff := by decide
  err_raised := by decide
  idle_zero := by decide
  pix_unspecified := by decide
  plane_iff := by decide
  pix_wf := by decide
  pix_range := pixels_range
  request_fits := fun _ => rfl
  pix_defined := fun _ i hi _ => (reads_pixels i).mpr hi
  pix_only := fun _ i hi => ⟨(reads_pixels i).mp hi, rfl⟩
  done_checked := by decide
  plane_samples := by
    intro p hp
    cases hp
    refine ⟨by decide, fun i hi => ?_, fun i hi => ?_⟩
    · have : i < 4 := hi
      interval_cases i <;> decide
    · have : 4 ≤ i := hi
      simp only [samples, Memory.read]
      rw [if_neg (by omega), if_neg (by omega), if_neg (by omega), if_neg (by omega)]

/-- The invariant holds in a RUN state with one group received and `p` bytes of the next one held. -/
theorem running_inv (p : BitVec 3) (hp : p.toNat ≤ 4) : (running p 1).Inv where
  phase_legal := hp
  err_iff := by simp [running, idle, State.reset]
  err_raised := by simp [running, idle, State.reset]
  idle_zero := by simp [running]
  pix_unspecified := by simp [running]
  plane_iff := by simp [running, idle, State.reset]
  pix_wf := by show Memory.wf pixels = true; decide
  pix_range := pixels_range
  request_fits := fun _ => rfl
  pix_defined := fun _ i hi _ => (reads_pixels i).mpr hi
  pix_only := fun _ i hi => ⟨(reads_pixels i).mp hi, rfl⟩
  done_checked := by simp [running]
  plane_samples := by simp [running, idle, State.reset]

/-- The invariant holds in IDLE, whatever the configuration. -/
theorem idle_inv (w h : Word32) (d : BitVec 8) : (idle w h d).Inv := by
  constructor <;> simp [idle, State.reset, Memory.wf, Memory.risesFrom]

/-- The invariant does not name what the host presents next. -/
theorem inv_given {s : State} (h : s.Inv) (l : List Input) : State.Inv { s with input := l } :=
  ⟨h.phase_legal, h.err_iff, h.err_raised, h.idle_zero, h.pix_unspecified, h.plane_iff, h.pix_wf, h.pix_range,
    h.request_fits, h.pix_defined, h.pix_only, h.done_checked, h.plane_samples⟩

theorem witness_OperationCodeSelectsCommand : 8 ≤ (8#4).toNat ∧ 8 ≤ (15#4).toNat := by decide

theorem witness_DecodeOfEncode : (Instr.wrcsr (.reserved 0xFFFFFFFF) 0xFFFFFFFF).WellFormed := by decide

theorem witness_DecoderTotalAndWellFormed :
    decode (.command 0x70000000000000000) = .ok .clear ∧ 8 ≤ (0x80000000000000000 : CmdWord).toNat / 2 ^ 64 := by decide

theorem witness_StepRunsDecodedOperation :
    (given done22 0x60000000000000001).input = .word (.command 0x60000000000000001) :: [] ∧
      decode (.command 0x60000000000000001) = .ok (.rdpix 0 1) := by decide

theorem witness_CoreWaitsForCommand : State.reset.input = [] := by decide

theorem witness_ReservedCodeRejected : 8 ≤ (8#4).toNat ∧
    (given done22 0x80000000100000002).input = .word (.command (8#4 ++ 1#32 ++ 2#32)) :: [] := by decide

theorem witness_ResetEventFromAnyState : { done22 with input := [.reset] }.input = .reset :: [] := by decide

theorem witness_WrcsrWritesConfigurationInIdle :
    (idle 4 2 8).fsm = .idle ∧ (running 0 0).fsm ≠ .idle ∧ 5 ≤ (5#32).toNat ∧ 5 ≤ (0xFFFFFFFF#32).toNat := by decide

theorem witness_WrcsrWritesConfigurationInIdle_only :
    ∃ t, step (given (idle 4 2 8) 0x10000000200000009) = .next t ∧
      ¬(t.width = (idle 4 2 8).width ∧ t.height = (idle 4 2 8).height ∧ t.depth = (idle 4 2 8).depth) :=
  ⟨_, rfl, by decide⟩

theorem witness_ReduceIsFloorDivision : (1023 : Pixel).toNat ≤ 1023 ∧
    legalDepth? 1 = some ⟨1, by decide⟩ ∧ legalDepth? 10 = some ⟨10, by decide⟩ ∧ legalDepth? 0 = none ∧
    legalDepth? 11 = none := by decide

theorem witness_WrittenRegisterReadsBack : (idle 4 2 8).fsm = .idle := by decide

/-- Both sides of the capacity test meet at 4 samples (V66, P6), and the unbounded store has no test. -/
theorem witness_StartBeginsRequest :
    (idle 4 2 8).fsm = .idle ∧ (idle 4 2 8).cfg.pixcap = none ∧
    (small (idle 4 1 8)).cfg.pixcap = some 4 ∧ (small (idle 4 1 8)).width.toNat * (small (idle 4 1 8)).height.toNat ≤ 4 ∧
    (small (idle 5 1 8)).cfg.pixcap = some 4 ∧ 4 < (small (idle 5 1 8)).width.toNat * (small (idle 5 1 8)).height.toNat ∧
    (running 0 0).fsm ≠ .idle := by decide

/-- Every clause of PUSH, with both sides of the capacity test at the fourth pixel of a group. -/
theorem witness_PushTakesByte :
    done22.fsm ≠ .run ∧ (running 0 0).fsm = .run ∧ (running 0 0).phase = 0#3 ∧ (running 1 0).phase = 1#3 ∧
    (running 2 0).phase = 2#3 ∧ (running 3 0).phase = 3#3 ∧ 4 ≤ (running 4 0).phase.toNat ∧
    (small (running 4 0)).cfg.pixcap = some 4 ∧ 4 * (small (running 4 0)).ngrp.toNat + 3 < 4 ∧
    4 ≤ 4 * (small (running 4 1)).ngrp.toNat := by decide

theorem witness_LanesIndependent :
    (0xE4#8).extractLsb' 0 2 = (0x00#8).extractLsb' 0 2 ∧ (0xE4#8).extractLsb' 2 2 = (0x04#8).extractLsb' 2 2 ∧
    (0xE4#8).extractLsb' 4 2 = (0x20#8).extractLsb' 4 2 ∧ (0xE4#8).extractLsb' 6 2 = (0xC0#8).extractLsb' 6 2 := by decide

theorem witness_UnpackGroupsInOrder :
    ([] : List Byte).length = 0 ∧ ([1, 2, 3, 4, 5, 6] : List Byte).length % 5 ≠ 0 ∧
    ([1, 2, 3, 4, 5] : List Byte).length ≠ 0 ∧ ([1, 2, 3, 4, 5] : List Byte).length % 5 = 0 ∧
    ([1, 2, 3, 4, 5] : List Byte)[5 * 0]? = some 1 ∧ ([1, 2, 3, 4, 5] : List Byte)[5 * 0 + 1]? = some 2 ∧
    ([1, 2, 3, 4, 5] : List Byte)[5 * 0 + 2]? = some 3 ∧ ([1, 2, 3, 4, 5] : List Byte)[5 * 0 + 3]? = some 4 ∧
    ([1, 2, 3, 4, 5] : List Byte)[5 * 0 + 4]? = some 5 := by decide

theorem witness_ReducerLaws :
    (⟨10, by decide⟩ : LegalDepth).val = 10 ∧ (⟨1, by decide⟩ : LegalDepth).val = 1 ∧
    (1023 : Pixel).toNat ≤ 1023 ∧ (511 : Pixel).toNat ≤ (512 : Pixel).toNat := by decide

/-- The legal depths at both ends, the illegal ones next to them, and a shape that does and one that does not match. -/
theorem witness_AssembleRowMajor :
    ([1020, 1, 682, 343, 5] : List Pixel).length ≠ (4#32).toNat * (1#32).toNat ∧
    ([1020, 1, 682, 343] : List Pixel).length = (2#32).toNat * (2#32).toNat ∧ (2#32).toNat ≠ 0 ∧
    (0#8).toNat = 0 ∧ 10 < (11#8).toNat ∧ (1 ≤ (1#8).toNat ∧ (1#8).toNat ≤ 10) ∧
    (1 ≤ (10#8).toNat ∧ (10#8).toNat ≤ 10) := by decide

theorem witness_ConvertIsUnpackThenAssemble :
    ([] : List Byte).length = 0 ∧ ([1, 2, 3, 4, 5, 6, 7] : List Byte).length % 5 ≠ 0 ∧
    unpack [0xFF, 0x00, 0xAA, 0x55, 0xE4] = .ok [1020, 1, 682, 343] := by decide

theorem witness_EndValidatesAndAssembles_errors :
    done22.fsm ≠ .run ∧ (running 1 1).fsm = .run ∧ (running 1 1).phase.toNat ≠ 0 ∧ (running 0 0).ngrp.toNat = 0 ∧
    (running 0 2).phase.toNat = 0 ∧ (running 0 2).ngrp.toNat ≠ 0 ∧
    4 * (running 0 2).ngrp.toNat ≠ (running 0 2).width.toNat * (running 0 2).height.toNat ∧
    4 * (running 0 1).ngrp.toNat = (running 0 1).width.toNat * (running 0 1).height.toNat ∧
    10 < { running 0 1 with depth := 11 }.depth.toNat ∧ { running 0 1 with depth := 0 }.depth.toNat = 0 := by decide

theorem witness_EndValidatesAndAssembles_plane :
    (running 0 1).fsm = .run ∧ (running 0 1).phase.toNat = 0 ∧ (running 0 1).ngrp.toNat ≠ 0 ∧
    (running 0 1).width.toNat ≠ 0 ∧ (running 0 1).height.toNat ≠ 0 ∧
    4 * (running 0 1).ngrp.toNat = (running 0 1).width.toNat * (running 0 1).height.toNat ∧
    1 ≤ (running 0 1).depth.toNat ∧ (running 0 1).depth.toNat ≤ 10 ∧
    ∀ i, i < 4 * (running 0 1).ngrp.toNat → (Memory.read (running 0 1).pix i).isSome = true :=
  ⟨by decide, by decide, by decide, by decide, by decide, by decide, by decide, by decide,
    fun i hi => (reads_pixels i).mpr hi⟩

/-- The last clause: END from a state of the invariant that ends in ERROR. -/
theorem witness_EndValidatesAndAssembles_no_plane :
    (running 1 1).Inv ∧ ∃ t, exec .endReq (running 1 1) = .next t ∧ t.fsm = .error :=
  ⟨running_inv 1 (by decide), _, rfl, rfl⟩

theorem witness_EndFaultsOnUnwrittenPixel :
    { running 0 1 with pix := [(0, 1020)] }.fsm = .run ∧ { running 0 1 with pix := [(0, 1020)] }.phase.toNat = 0 ∧
    3 < 4 * { running 0 1 with pix := [(0, 1020)] }.ngrp.toNat ∧
    Memory.read { running 0 1 with pix := [(0, 1020)] }.pix 3 = none := by decide

/-- All three errors at once, and a request without any. -/
theorem witness_ErrorPrecedence :
    (∃ t, exec .endReq { running 1 1 with height := 0, depth := 0 } = .next t) ∧
    (∃ t, exec .endReq { running 0 1 with height := 0, depth := 0 } = .next t) ∧
    (∃ t, exec .endReq { running 0 1 with depth := 0 } = .next t) ∧ ∃ t, exec .endReq (running 0 1) = .next t :=
  ⟨⟨_, rfl⟩, ⟨_, rfl⟩, ⟨_, rfl⟩, ⟨_, rfl⟩⟩

theorem witness_RdpixReadsSample : done22.Inv ∧ done22.fsm = .done ∧
    (1#32).toNat < done22.height.toNat ∧ (1#32).toNat < done22.width.toNat ∧ done22.height.toNat ≤ (2#32).toNat :=
  ⟨done22_inv, by decide, by decide, by decide, by decide⟩

theorem witness_RdpixReadsSample_outside_done : (running 0 1).Inv ∧ (running 0 1).fsm ≠ .done :=
  ⟨running_inv 0 (by decide), by decide⟩

theorem witness_ClearEndsRequest : (running 0 1).fsm = .run ∧ done22.fsm ≠ .run ∧
    (failed .shapeMismatch 0 1).fsm ≠ .run ∧ (idle 4 2 8).Inv ∧ (idle 4 2 8).fsm = .idle :=
  ⟨by decide, by decide, by decide, idle_inv 4 2 8, by decide⟩

theorem witness_RejectedChangesNothing :
    ∃ t, step (given (running 0 1) 0x70000000000000000) = .next t ∧ ∃ d, t.rsp = some ⟨false, d⟩ :=
  ⟨_, rfl, 0#64, rfl⟩

/-- Every row of the table, accepted and rejected where both exist. -/
theorem witness_AcceptanceTable :
    tableAccepts 0 0 0 done22 = true ∧ tableAccepts 1 2 0 (idle 4 2 8) = true ∧ tableAccepts 1 3 0 (idle 4 2 8) = false ∧
    tableAccepts 2 4 0 done22 = true ∧ tableAccepts 2 5 0 done22 = false ∧
    tableAccepts 3 0 0 (small (idle 4 1 8)) = true ∧ tableAccepts 3 0 0 (small (idle 4 2 8)) = false ∧
    tableAccepts 4 0 0 (running 4 1) = true ∧ tableAccepts 4 0 0 done22 = false ∧
    tableAccepts 5 0 0 (running 4 1) = true ∧ tableAccepts 5 0 0 (failed .shapeMismatch 0 1) = false ∧
    tableAccepts 6 1 1 done22 = true ∧ tableAccepts 6 2 0 done22 = false ∧
    tableAccepts 7 0 0 done22 = true ∧ tableAccepts 7 0 0 (running 0 1) = false ∧ tableAccepts 8 0 0 done22 = false := by
  decide

theorem witness_AcceptanceTable_state : (given done22 0x60000000100000001).Inv ∧
    (given done22 0x60000000100000001).input = .word (.command (6#4 ++ 1#32 ++ 1#32)) :: [] :=
  ⟨inv_given done22_inv _, by decide⟩

/-- Each transition of FSM happens. -/
theorem witness_OnlyFsmTransitions :
    (∃ t, step { done22 with input := [.reset] } = .next t ∧ t.fsm = .idle) ∧
    (∃ t, step (given (idle 2 2 8) 0x30000000000000000) = .next t ∧ t.fsm = .run) ∧
    (∃ t, step (given (running 0 1) 0x50000000000000000) = .next t ∧ t.fsm = .done) ∧
    (∃ t, step (given (running 1 1) 0x50000000000000000) = .next t ∧ t.fsm = .error) ∧
    ∃ t, step (given done22 0x70000000000000000) = .next t ∧ t.fsm = .idle :=
  ⟨⟨_, rfl, rfl⟩, ⟨_, rfl, rfl⟩, ⟨_, rfl, rfl⟩, ⟨_, rfl, rfl⟩, ⟨_, rfl, rfl⟩⟩

theorem witness_NoCancelInRun : (given (running 0 1) 0x50000000000000000).Inv ∧
    (given (running 0 1) 0x50000000000000000).fsm = .run ∧
    ∃ t, step (given (running 0 1) 0x50000000000000000) = .next t ∧ t.fsm ≠ .run :=
  ⟨inv_given (running_inv 0 (by decide)) _, rfl, _, rfl, by decide⟩

theorem witness_ConfigurationFixedDuringRequest :
    ∃ t, step (given (idle 4 2 8) 0x10000000000000006) = .next t ∧
      ¬(t.width = (idle 4 2 8).width ∧ t.height = (idle 4 2 8).height ∧ t.depth = (idle 4 2 8).depth) :=
  ⟨_, rfl, by decide⟩

theorem witness_CapacityNeverChanges : ∃ t, step (given (small (idle 4 1 8)) 0x30000000000000000) = .next t :=
  ⟨_, rfl⟩

theorem witness_ResultFixedUntilClear_done : done22.fsm = .done ∧
    (∃ t, step (given done22 0x60000000100000000) = .next t) ∧
    ¬(given done22 0x60000000100000000).takesCommand .clear ∧ ¬(given done22 0x60000000100000000).takesReset := by
  refine ⟨rfl, ⟨_, rfl⟩, ?_, ?_⟩
  · rintro ⟨w, rest, h, hd⟩
    cases h
    revert hd
    decide
  · rintro ⟨rest, h⟩
    cases h

theorem witness_ResultFixedUntilClear_error : (given (failed .shapeMismatch 0 1) 0x50000000000000000).fsm = .error ∧
    (∃ t, step (given (failed .shapeMismatch 0 1) 0x50000000000000000) = .next t) ∧
    ¬(given (failed .shapeMismatch 0 1) 0x50000000000000000).takesCommand .clear ∧
    ¬(given (failed .shapeMismatch 0 1) 0x50000000000000000).takesReset := by
  refine ⟨rfl, ⟨_, rfl⟩, ?_, ?_⟩
  · rintro ⟨w, rest, h, hd⟩
    cases h
    revert hd
    decide
  · rintro ⟨rest, h⟩
    cases h

theorem witness_PhaseAdvancesOnlyByPush : (running 4 1).phase.toNat ≤ 4 ∧
    (∃ t, step (given (running 4 1) 0x40000000000000000) = .next t ∧ t.phase ≠ (running 4 1).phase) ∧
    ∃ t, step (given (failed .invalidBufferLength 2 1) 0x70000000000000000) = .next t ∧
      t.phase ≠ (failed .invalidBufferLength 2 1).phase :=
  ⟨by decide, ⟨_, rfl, by decide⟩, _, rfl, by decide⟩

theorem witness_PushCountsOneByte : (running 4 0xFFFFFFFFFFFFFFFE).fsm = .run ∧
    (running 4 0xFFFFFFFFFFFFFFFE).phase.toNat ≤ 4 ∧ (running 4 0xFFFFFFFFFFFFFFFE).ngrp.toNat < 2 ^ 64 - 1 := by decide

theorem witness_SaturatedCountNeverAssembles : (running 0 0xFFFFFFFFFFFFFFFF).fsm = .run ∧
    (running 0 0xFFFFFFFFFFFFFFFF).ngrp.toNat = 2 ^ 64 - 1 ∧ (running 1 0xFFFFFFFFFFFFFFFF).ngrp.toNat = 2 ^ 64 - 1 := by
  decide

theorem witness_ErrorFlagWrittenOnlyByEnd :
    (∃ t, step (given (running 1 1) 0x50000000000000000) = .next t ∧ t.err ≠ (running 1 1).err) ∧
    ∃ t, step (given (failed .shapeMismatch 0 1) 0x70000000000000000) = .next t ∧
      t.err ≠ (failed .shapeMismatch 0 1).err :=
  ⟨⟨_, rfl, by decide⟩, _, rfl, by decide⟩

theorem witness_ReadsAreIdempotent :
    (∃ t, exec (.rdcsr .status) done22 = .next t) ∧ ∃ t, exec (.rdpix 1 1) done22 = .next t :=
  ⟨⟨_, rfl⟩, _, rfl⟩

theorem witness_NoPlaneAfterError : (given (running 1 1) 0x50000000000000000).Inv ∧
    ∃ t, step (given (running 1 1) 0x50000000000000000) = .next t ∧ t.fsm = .error :=
  ⟨inv_given (running_inv 1 (by decide)) _, _, rfl, rfl⟩

theorem witness_StepKeepsInvariant : (given (running 4 1) 0x400000000000000E4).Inv ∧
    ∃ t, step (given (running 4 1) 0x400000000000000E4) = .next t :=
  ⟨inv_given (running_inv 4 (by decide)) _, _, rfl⟩

theorem witness_StepNeverStops : (given (running 0 1) 0x50000000000000000).Inv :=
  inv_given (running_inv 0 (by decide)) _

/-- Two cores in RUN that differ in a holding register not yet filled and in a pixel not yet received look the same. -/
theorem witness_UnspecifiedStorageUnobservable :
    (running 3 1).Inv ∧
    SameVisible (running 3 1) { running 3 1 with h := ⟨0xFF, 0x00, 0xAA, 0x99⟩, pix := pixels ++ [(9, 77)] } ∧
    ∃ t, step (running 3 1) = .next t := by
  refine ⟨running_inv 3 (by decide), ?_, _, rfl⟩
  constructor <;> first | rfl | skip
  · intro _ j _ hj
    have : j < 3 := hj
    interval_cases j <;> decide
  · intro _ i hi _
    have : i < 4 := hi
    interval_cases i <;> decide

/-- Two cores in IDLE that differ in what their holding registers kept. -/
theorem witness_OutcomeIndependentOfHistory :
    (idle 4 2 8).Inv ∧ State.Inv { idle 4 2 8 with h := ⟨1, 2, 3, 4⟩, freeCount := 4 } ∧ (idle 4 2 8).fsm = .idle := by
  refine ⟨idle_inv 4 2 8, ?_, rfl⟩
  constructor <;> simp [idle, State.reset, Memory.wf, Memory.risesFrom]

theorem witness_RunHoldsWhatWasPushed :
    (idle 2 2 8).cfg.fits ((idle 2 2 8).width.toNat * (idle 2 2 8).height.toNat) = true ∧
    (∀ i ∈ [Instr.push 0xFF, .nop, .push 0x00], i.WellFormed ∧ i ≠ .endReq) ∧
    [0xFF#8, 0x00#8] = [Instr.push 0xFF, .nop, .push 0x00].filterMap
      (fun i => match i with | .push v => some v | _ => none) ∧
    [0xFF#8, 0x00#8].length < 5 * (2 ^ 64 - 1) ∧
    ∃ s : State, s.fsm = .idle ∧ s.input = issue .start :: [Instr.push 0xFF, .nop, .push 0x00].map issue ++ [] :=
  ⟨by decide, by decide, by decide, by decide,
    { idle 2 2 8 with input := issue .start :: [Instr.push 0xFF, .nop, .push 0x00].map issue ++ [] }, rfl, rfl⟩

/-- A buffer that converts (V41) and one that does not (V42) meet the hypotheses alike. -/
theorem witness_CommandsCarryOutConvert :
    (∃ P, convert [0xFF, 0x00, 0xAA, 0x55, 0xE4] 2 2 10 = .ok P) ∧
    (∃ e, convert [0xFF, 0x00, 0xAA, 0x55, 0xE4, 0x01, 0x02] 4 1 8 = .error e) ∧
    State.reset.cfg.fits ((2#32).toNat * (2#32).toNat) = true ∧
    ∃ s : State, s.fsm = .idle ∧ s.input = (convertCommands [0xFF, 0x00, 0xAA, 0x55, 0xE4] 2 2 10).map issue ++ [] :=
  ⟨⟨_, rfl⟩, ⟨_, rfl⟩, by decide,
    { State.reset with input := (convertCommands [0xFF, 0x00, 0xAA, 0x55, 0xE4] 2 2 10).map issue ++ [] }, rfl, rfl⟩

theorem witness_ReadPlaneYieldsRowMajor :
    State.Inv { done22 with input := (readPlane 2 2).map issue ++ [] } ∧ done22.fsm = .done ∧
    done22.plane = some samples ∧ 3 < done22.width.toNat * done22.height.toNat :=
  ⟨inv_given done22_inv _, by decide, by decide, by decide⟩

end Sys2Proof.Tests
end

section
/-! PROOFS. The scope (00_scope.md): PIXCAP is a constant of the machine. -/
namespace Sys2Proof.Machine

/-- No operation changes PIXCAP (R7). -/
theorem Effect.cfg_eq {s t : State} {i : Instr} (h : Effect s i t) : t.cfg = s.cfg := by
  cases h with
  | same => rfl
  | width => rfl
  | height => rfl
  | depth => rfl
  | start => exact State.accept_cfg _ _
  | hold => exact State.accept_cfg _ _
  | group => exact State.accept_cfg _ _
  | raise e => exact State.raise_cfg s e
  | done => exact State.accept_cfg _ _
  | clear => exact (State.accept_cfg _ _).trans (State.acknowledge_cfg s)

/-- Settles O35: waiting, a reset, a rejected word and every performed operation keep PIXCAP. -/
theorem capacityNeverChanges : Obligations.CapacityNeverChanges := by
  intro s t h
  rcases step_next h with ⟨-, rfl⟩ | ⟨rest, -, rfl⟩ | ⟨_, _, rest, -, -, rfl⟩ | ⟨_, _, rest, -, -, he⟩
  · rfl
  · exact State.hardReset_cfg _
  · exact State.reject_cfg _
  · exact he.cfg_eq

end Sys2Proof.Machine
end

section
/-! PROOFS. The architectural state (10_state.md): what a step can change, the invariant it keeps, and the storage no
response depends on. -/
namespace Sys2Proof.Machine

/-! ### What a step can change -/

/-- An encoded operation that decodes is a command word, or the data format EXTRACT (R77). -/
theorem command_or_extract_of_decode {r : Raw} {i : Instr} (hd : decode r = .ok i) :
    (∃ w, r = .command w) ∨ ∃ b0 b1 b2 b3 b4, i = .extract b0 b1 b2 b3 b4 := by
  cases r with
  | command w => exact .inl ⟨w, rfl⟩
  | group g => cases hd; exact .inr ⟨_, _, _, _, _, rfl⟩

/-- A step changes at most the ports (the inputs to come, the response, the lanes), or it takes a reset, or it takes a
command and has one of its effects. -/
theorem step_changes {s t : State} (h : step s = .next t) :
    (∃ l r q, t = { s with input := l, rsp := r, lanes := q }) ∨
      (s.takesReset ∧ ∃ l, t = State.hardReset { s with input := l }) ∨
      ∃ i l, s.takesCommand i ∧ Effect { s with input := l } i t := by
  rcases step_next h with ⟨-, rfl⟩ | ⟨rest, hin, rfl⟩ | ⟨_, _, _, -, -, rfl⟩ | ⟨r, i, rest, hin, hd, he⟩
  · exact .inl ⟨_, _, _, rfl⟩
  · exact .inr (.inl ⟨⟨rest, hin⟩, rest, rfl⟩)
  · exact .inl ⟨_, _, _, rfl⟩
  · rcases command_or_extract_of_decode hd with ⟨w, rfl⟩ | ⟨_, _, _, _, _, rfl⟩
    · exact .inr (.inr ⟨i, rest, ⟨w, rest, hin, hd⟩, he⟩)
    · cases he
      exact .inl ⟨_, _, _, rfl⟩

/-- Settles O32: the operations that change FSM are START, END and CLEAR, each from the state its effect names. -/
theorem onlyFsmTransitions : Obligations.OnlyFsmTransitions := by
  refine ⟨rfl, rfl, rfl, rfl, rfl, fun s t h hne => ?_⟩
  rcases step_changes h with ⟨_, _, _, rfl⟩ | ⟨hr, _, rfl⟩ | ⟨i, _, hi, he⟩
  · exact absurd rfl hne
  · exact .inl ⟨hr, rfl⟩
  · cases he with
    | same | width | height | depth | hold | group => exact absurd rfl hne
    | start hs => exact .inr (.inl ⟨hi, hs, rfl⟩)
    | raise e hs => exact .inr (.inr (.inl ⟨hi, hs, .inr rfl⟩))
    | done d p hs => exact .inr (.inr (.inl ⟨hi, hs, .inl rfl⟩))
    | clear hs =>
      have hfrom : s.fsm = .done ∨ s.fsm = .error := by
        cases hf : s.fsm with
        | idle => exact absurd hf hne
        | run => exact absurd hf hs
        | done => exact .inl rfl
        | error => exact .inr rfl
      exact .inr (.inr (.inr ⟨hi, hfrom, rfl⟩))

/-- A PHASE below 4 counts one up without wrap-around. -/
theorem phase_succ_toNat {p : BitVec 3} (h : p.toNat < 4) : (p + 1#3).toNat = p.toNat + 1 := by
  rw [BitVec.toNat_add]
  exact Nat.mod_eq_of_lt (by simp; omega)

/-- Settles O37: PUSH counts up before phase 4 and returns to 0 at phase 4; START, CLEAR and reset write 0; END keeps
PHASE. -/
theorem phaseAdvancesOnlyByPush : Obligations.PhaseAdvancesOnlyByPush := by
  intro s t hp h hne
  rcases step_changes h with ⟨_, _, _, rfl⟩ | ⟨hr, _, rfl⟩ | ⟨i, _, hi, he⟩
  · exact absurd rfl hne
  · exact .inr ⟨rfl, .inr (.inr hr)⟩
  · cases he with
    | same | width | height | depth | raise | done => exact absurd rfl hne
    | start => exact .inr ⟨rfl, .inl hi⟩
    | clear => exact .inr ⟨rfl, .inr (.inl hi)⟩
    | hold v hs h4 =>
      have h4 : s.phase.toNat < 4 := h4
      refine .inl ⟨hs, ⟨v, hi⟩, (phase_succ_toNat h4).trans ?_⟩
      omega
    | group v hs h4 =>
      have h4 : s.phase.toNat = 4 := Nat.le_antisymm hp h4
      exact .inl ⟨hs, ⟨v, hi⟩, by simp [h4]⟩

/-- Settles O40: only END raises an error, and START, CLEAR and reset leave none. -/
theorem errorFlagWrittenOnlyByEnd : Obligations.ErrorFlagWrittenOnlyByEnd := by
  intro s t h hne
  rcases step_changes h with ⟨_, _, _, rfl⟩ | ⟨hr, _, rfl⟩ | ⟨i, _, hi, he⟩
  · exact absurd rfl hne
  · exact .inr ⟨rfl, .inr (.inr hr)⟩
  · cases he with
    | same | width | height | depth | hold | group | done => exact absurd rfl hne
    | start => exact .inr ⟨rfl, .inl hi⟩
    | clear => exact .inr ⟨rfl, .inr (.inl hi)⟩
    | raise e hs => exact .inl ⟨hi, hs, rfl, rfl⟩

/-- Settles O6: taking the next word performs what it decodes to. -/
theorem stepRunsDecodedOperation : Obligations.StepRunsDecodedOperation :=
  fun _ _ _ _ hin hd => step_word hin hd

/-- Settles O7: the step's own case for an empty list of inputs. -/
theorem coreWaitsForCommand : Obligations.CoreWaitsForCommand := by
  intro s hin
  simp [step, State.advance, hin]

/-! ### The registers and the counters -/

/-- Settles O9: field by field. -/
theorem resetValues : Obligations.ResetValues :=
  ⟨rfl, rfl, rfl, rfl, rfl, rfl, rfl, Memory.read_nil, rfl⟩

/-- In IDLE, WRCSR of a writable register is accepted. -/
theorem execWrcsr_write {s u : State} {r : Csr} {v : Word32} (hs : s.fsm = .idle) (hw : s.csrWrite r v = some u) :
    execWrcsr r v s = .next (u.accept 0#64) := by
  simp [execWrcsr, hs, hw]

/-- WRCSR is rejected outside IDLE, and of a register that is not writable (R133). -/
theorem execWrcsr_reject {s : State} {r : Csr} {v : Word32} (h : s.fsm ≠ .idle ∨ s.csrWrite r v = none) :
    execWrcsr r v s = .next s.reject := by
  unfold execWrcsr
  split
  · rfl
  · rename_i hs
    rw [h.resolve_left hs]

/-- RDCSR of a reserved number is rejected (R135). -/
theorem execRdcsr_reject {s : State} {r : Csr} (hr : s.csrRead r = none) : execRdcsr r s = .next s.reject := by
  simp [execRdcsr, hr]

/-- RDCSR of a register that exists answers it. -/
theorem execRdcsr_read {s : State} {r : Csr} {x : Word64} (hr : s.csrRead r = some x) :
    execRdcsr r s = .next (s.accept x) := by
  simp [execRdcsr, hr]

/-- The value DEPTH takes is the operand modulo 256 (R29). -/
theorem depthOperand_toNat (v : Word32) : (depthOperand v).toNat = v.toNat % 256 := by
  rw [depthOperand, extract_toNat]
  omega

/-- In IDLE, a WRCSR of a writable register followed by an RDCSR of it answers what the written state holds there. -/
theorem exec_rdcsr_after_wrcsr {s u : State} {r : Csr} {v : Word32} {x : Word64} (hs : s.fsm = .idle)
    (hw : s.csrWrite r v = some u) (hr : (u.accept 0#64).csrRead r = some x) :
    ∃ t t', exec (.wrcsr r v) s = .next t ∧ exec (.rdcsr r) t = .next t' ∧ t'.rsp = some ⟨true, x⟩ :=
  ⟨_, _, execWrcsr_write hs hw, execRdcsr_read hr, rfl⟩

/-- Settles O14: WIDTH and HEIGHT store the operand, DEPTH its low byte, and the read answers what is stored. -/
theorem writtenRegisterReadsBack : Obligations.WrittenRegisterReadsBack := by
  intro s v hs
  have hword : v.setWidth 64 = BitVec.ofNat 64 v.toNat := (BitVec.ofNat_toNat 64 v).symm
  have hdepth : (depthOperand v).setWidth 64 = BitVec.ofNat 64 (v.toNat % 256) := by
    rw [← depthOperand_toNat, BitVec.ofNat_toNat]
  exact ⟨exec_rdcsr_after_wrcsr hs rfl (congrArg some hword), exec_rdcsr_after_wrcsr hs rfl (congrArg some hword),
    exec_rdcsr_after_wrcsr hs rfl (congrArg some hdepth)⟩

/-- START in IDLE of a request that fits (R134). -/
theorem execStart_accept {s : State} (hs : s.fsm = .idle) (hfit : s.cfg.fits s.planeSize = true) :
    execStart s = .next (State.accept { s with phase := 0#3, ngrp := 0#64, err := none, fsm := .run } 0#64) := by
  simp [execStart, hs, hfit]

/-- START is rejected outside IDLE, and of a request that does not fit (R134). -/
theorem execStart_reject {s : State} (h : ¬(s.fsm = .idle ∧ s.cfg.fits s.planeSize = true)) :
    execStart s = .next s.reject := by
  unfold execStart
  split
  · rfl
  · rename_i hs
    exact if_neg fun hfit => h ⟨not_not.mp hs, hfit⟩

/-- CLEAR is rejected in RUN (R138). -/
theorem execClear_reject {s : State} (hs : s.fsm = .run) : execClear s = .next s.reject := if_pos hs

/-- CLEAR outside RUN acknowledges the request or the error (R137). -/
theorem execClear_accept {s : State} (hs : s.fsm ≠ .run) : execClear s = .next (s.acknowledge.accept 0#64) :=
  if_neg hs

/-- PUSH is rejected outside RUN (R96). -/
theorem execPush_reject {s : State} {v : Byte} (hs : s.fsm ≠ .run) : execPush v s = .next s.reject := if_pos hs

/-- PUSH before phase 4 holds the byte (R96). -/
theorem execPush_hold {s : State} {v : Byte} (hs : s.fsm = .run) (h4 : s.phase.toNat < 4) :
    execPush v s = .next (State.accept { s with h := s.h.set s.phase.toNat v, phase := s.phase + 1#3 } 0#64) := by
  simp [execPush, hs, h4]

/-- PUSH from phase 4 on completes a group (R96, log 13). -/
theorem execPush_group {s : State} {v : Byte} (hs : s.fsm = .run) (h4 : 4 ≤ s.phase.toNat) :
    execPush v s = .next (State.accept
      { s with
        pix := storeQuad s.cfg s.pix s.pixelCount (Machine.extract s.h.b0 s.h.b1 s.h.b2 s.h.b3 v)
        ngrp := saturatingSucc s.ngrp
        phase := 0#3 } 0#64) := by
  simp [execPush, hs, Nat.not_lt.mpr h4]

/-- Settles O38: before phase 4 the byte counts in PHASE; at phase 4 the fifth byte turns into one group. -/
theorem pushCountsOneByte : Obligations.PushCountsOneByte := by
  intro s v hs hp hn
  rcases Nat.lt_or_ge s.phase.toNat 4 with h4 | h4
  · refine ⟨_, execPush_hold hs h4, ?_⟩
    simp only [State.accept_phase, State.accept_ngrp, phase_succ_toNat h4]
    omega
  · refine ⟨_, execPush_group hs h4, ?_⟩
    simp only [State.accept_phase, State.accept_ngrp, saturatingSucc_toNat, BitVec.toNat_zero]
    omega

/-- No plane has as many samples as a saturated group count has pixels (R25, R115). -/
theorem pixelCount_ne_planeSize_of_saturated {s : State} (hn : s.ngrp.toNat = 2 ^ 64 - 1) :
    s.pixelCount ≠ s.planeSize := by
  have hlt : s.planeSize < 2 ^ 32 * 2 ^ 32 := Nat.mul_lt_mul'' s.width.isLt s.height.isLt
  unfold State.pixelCount
  omega

/-- Settles O39: an incomplete group is a bad length, and a saturated count of complete groups fits no shape. -/
theorem saturatedCountNeverAssembles : Obligations.SaturatedCountNeverAssembles := by
  intro s hs hn
  by_cases hp : s.phase = 0#3
  · have hgood : ¬(s.phase ≠ 0#3 ∨ s.ngrp = 0#64) := by bv_omega
    refine ⟨_, execEndReq_shape hs hgood (.inr (.inr (pixelCount_ne_planeSize_of_saturated hn))), rfl, ?_⟩
    simp [hp]
  · refine ⟨_, execEndReq_length hs (.inl hp), rfl, ?_⟩
    simp [hp]

/-- END is rejected outside RUN (R116). -/
theorem execEndReq_reject {s : State} (hs : s.fsm ≠ .run) : execEndReq s = .next s.reject := if_pos hs

/-- END with everything in order and every pixel written builds the plane (R116). -/
theorem execEndReq_done {s : State} {p : Memory} (hs : s.fsm = .run) (hgood : ¬(s.phase ≠ 0#3 ∨ s.ngrp = 0#64))
    (hshape : ¬(s.width = 0#32 ∨ s.height = 0#32 ∨ s.pixelCount ≠ s.planeSize))
    (hd : 1 ≤ s.depth.toNat ∧ s.depth.toNat ≤ 10)
    (hcells : planeCells s.pix ⟨s.depth.toNat, hd⟩ 0 s.planeSize = some p) :
    execEndReq s = .next (State.accept { s with fsm := .done, plane := some p } 0#64) := by
  rw [execEndReq_plane hs hgood hshape hd, hcells]

/-- RDPIX is rejected outside DONE and outside the plane (R117). -/
theorem execRdpix_reject {s : State} {row col : Word32}
    (h : ¬(s.fsm = .done ∧ row.toNat < s.height.toNat ∧ col.toNat < s.width.toNat)) :
    execRdpix row col s = .next s.reject := by
  unfold execRdpix
  split
  · rfl
  · rename_i hs
    refine if_pos ?_
    by_contra hin
    exact h ⟨not_not.mp hs, by omega, by omega⟩

/-- RDPIX in DONE of a sample that exists answers it (R117). -/
theorem execRdpix_sample {s : State} {row col : Word32} {v : Pixel} (hs : s.fsm = .done)
    (hrow : row.toNat < s.height.toNat) (hcol : col.toNat < s.width.toNat)
    (hv : s.planeRead row.toNat col.toNat = some v) :
    execRdpix row col s = .next (s.accept (v.setWidth 64)) := by
  unfold execRdpix
  rw [if_neg (by simp [hs]), if_neg (by omega), hv]

/-- Settles O26: the plane has no cells where one of its pixels holds no value. -/
theorem endFaultsOnUnwrittenPixel : Obligations.EndFaultsOnUnwrittenPixel := by
  rintro s hs hp hn hw hh hc hd1 hd10 ⟨i, hi, hnone⟩
  have hgood : ¬(s.phase ≠ 0#3 ∨ s.ngrp = 0#64) := by bv_omega
  have hshape : ¬(s.width = 0#32 ∨ s.height = 0#32 ∨ s.pixelCount ≠ s.planeSize) := by
    rintro (h | h | h)
    · simp [h] at hw
    · simp [h] at hh
    · exact h hc
  have hcells : planeCells s.pix ⟨s.depth.toNat, hd1, hd10⟩ 0 s.planeSize = none := by
    rw [← Option.not_isSome_iff_eq_none, planeCells_isSome]
    intro hall
    have hlt : i < 0 + s.planeSize := by rw [Nat.zero_add, State.planeSize, ← hc]; exact hi
    simpa [hnone] using hall i (Nat.zero_le i) hlt
  show execEndReq s = _
  rw [execEndReq_plane hs hgood hshape ⟨hd1, hd10⟩, hcells]

/-! ### The invariant -/

/-- What IDLE holds besides WIDTH, HEIGHT and DEPTH (R30, R33, R34). -/
structure State.AtRest (s : State) : Prop where
  fsm : s.fsm = .idle
  err : s.err = none
  phase : s.phase = 0#3
  ngrp : s.ngrp = 0#64
  pix : s.pix = []
  plane : s.plane = none

/-- A core at rest meets the invariant: each clause is about another state of FSM or about an empty store. -/
theorem State.AtRest.inv {s : State} (h : s.AtRest) : s.Inv := by
  constructor <;> simp [h.fsm, h.err, h.phase, h.ngrp, h.pix, h.plane, Memory.wf_nil]

/-- Outside DONE there is no plane (R34). -/
theorem State.Inv.plane_eq_none {s : State} (h : s.Inv) (hs : s.fsm ≠ .done) : s.plane = none := by
  simpa [hs] using h.plane_iff

/-- In IDLE a state of the invariant is at rest. -/
theorem State.Inv.atRest {s : State} (h : s.Inv) (hs : s.fsm = .idle) : s.AtRest where
  fsm := hs
  err := by simpa [hs] using h.err_iff
  phase := (h.idle_zero hs).1
  ngrp := (h.idle_zero hs).2
  pix := h.pix_unspecified (.inl hs)
  plane := h.plane_eq_none (by simp [hs])

/-- Settles O43: reset leaves the core at rest. -/
theorem resetMeetsInvariant : Obligations.ResetMeetsInvariant :=
  fun _ _ => State.AtRest.inv ⟨rfl, rfl, rfl, rfl, rfl, rfl⟩

/-- The invariant names neither the ports nor the holding registers nor the counter of free bytes. -/
theorem State.Inv.of_ports {s : State} (h : s.Inv) (l : List Input) (r : Option Response) (q : Option Quad) (b : Hold)
    (n : Nat) : State.Inv { s with input := l, rsp := r, lanes := q, h := b, freeCount := n } :=
  ⟨h.phase_legal, h.err_iff, h.err_raised, h.idle_zero, h.pix_unspecified, h.plane_iff, h.pix_wf, h.pix_range,
    h.request_fits, h.pix_defined, h.pix_only, h.done_checked, h.plane_samples⟩

/-- Every stored pixel is in range after a group is stored, if it was before (R32). -/
theorem read_storeQuad_le {c : Config} {m : Memory} {i : Nat} {q : Quad} (hq : ∀ p ∈ q.toList, p.toNat ≤ 1023)
    (hm : ∀ k v, Memory.read m k = some v → v.toNat ≤ 1023) (k : Nat) (v : Pixel)
    (h : Memory.read (storeQuad c m i q) k = some v) : v.toNat ≤ 1023 := by
  rw [read_storeQuad] at h
  split at h
  · exact hq v (List.mem_of_getElem? h)
  · exact hm k v h

/-- Storing a group defines its four elements that the store has, and no other. -/
theorem isSome_read_storeQuad (c : Config) (m : Memory) (i : Nat) (q : Quad) (k : Nat) :
    (Memory.read (storeQuad c m i q) k).isSome = true ↔
      (i ≤ k ∧ k < i + 4 ∧ c.holds k = true) ∨ (Memory.read m k).isSome = true := by
  rw [read_storeQuad]
  split
  · rename_i hk
    have : k - i < q.toList.length := by rw [Quad.toList_length]; omega
    simp [hk, this]
  · rename_i hk
    simp [hk]

/-- START from rest: nothing has been received, and the request fits (R134). -/
theorem State.AtRest.inv_start {s : State} (h : s.AtRest) (hfit : s.cfg.fits s.planeSize = true) :
    State.Inv (State.accept { s with phase := 0#3, ngrp := 0#64, err := none, fsm := .run } 0#64) := by
  unfold State.planeSize at hfit
  constructor <;> simp [h.pix, h.plane, Memory.wf_nil, State.pixelCount, State.planeSize, hfit]

/-- A held byte moves PHASE one up, which stays at most 4; no clause but the first names PHASE in RUN. -/
theorem State.Inv.hold {s : State} (h : s.Inv) (hs : s.fsm = .run) (h4 : s.phase.toNat < 4) (b : Hold) (d : Word64) :
    State.Inv (State.accept { s with h := b, phase := s.phase + 1#3 } d) := by
  have hphase : (s.phase + 1#3).toNat ≤ 4 := by
    rw [phase_succ_toNat h4]
    exact h4
  exact { h with phase_legal := hphase, idle_zero := by simp [hs], done_checked := by simp [hs] }

/-- A completed group: the elements below `4 * NGRP` grow by the four the group stores. -/
theorem State.Inv.group {s : State} (h : s.Inv) (hs : s.fsm = .run) {q : Quad} (hq : ∀ p ∈ q.toList, p.toNat ≤ 1023)
    (d : Word64) :
    State.Inv (State.accept
      { s with pix := storeQuad s.cfg s.pix s.pixelCount q, ngrp := saturatingSucc s.ngrp, phase := 0#3 } d) :=
  { h with
    phase_legal := Nat.zero_le 4
    idle_zero := by simp [hs]
    pix_unspecified := by simp [hs]
    pix_wf := wf_storeQuad _ _ _ _ h.pix_wf
    pix_range := read_storeQuad_le hq h.pix_range
    pix_defined := by
      intro hf i hi hh
      refine (isSome_read_storeQuad ..).mpr ?_
      rcases Nat.lt_or_ge i s.pixelCount with hlt | hge
      · exact .inr (h.pix_defined hf i hlt hh)
      · simp only [State.pixelCount, State.accept_ngrp, saturatingSucc_toNat] at hi hge ⊢
        exact .inl ⟨hge, by omega, hh⟩
    pix_only := by
      intro hn i hi
      simp only [State.pixelCount, State.accept_ngrp, saturatingSucc_toNat] at hn ⊢
      rcases (isSome_read_storeQuad ..).mp hi with ⟨-, hlt, hh⟩ | hold
      · unfold State.pixelCount at hlt
        exact ⟨by omega, hh⟩
      · obtain ⟨hlt, hh⟩ := h.pix_only (by omega) i hold
        unfold State.pixelCount at hlt
        exact ⟨by omega, hh⟩
    done_checked := by simp [hs]
    plane_samples := by simp [h.plane_eq_none (by simp [hs])] }

/-- An error empties the pixel store and leaves no plane (R157, R158). -/
theorem State.Inv.raise {s : State} (h : s.Inv) (hs : s.fsm = .run) {e : RequestError}
    (he : e ≠ .unsupportedBayerOrder) : (s.raise e).Inv := by
  constructor <;> simp [h.phase_legal, he, h.plane_eq_none (by simp [hs]), Memory.wf_nil]

/-- The plane END builds meets the clauses about DONE (R116). -/
theorem State.Inv.done {s : State} (h : s.Inv) (hs : s.fsm = .run) {d : LegalDepth} {p : Memory} (hp : s.phase = 0#3)
    (hn : s.ngrp ≠ 0#64) (hw : s.width ≠ 0#32) (hh : s.height ≠ 0#32) (hc : s.pixelCount = s.planeSize)
    (hd : legalDepth? s.depth = some d) (hcells : planeCells s.pix d 0 s.planeSize = some p) (x : Word64) :
    State.Inv (State.accept { s with fsm := .done, plane := some p } x) := by
  obtain ⟨hval, hd1, hd10⟩ := legalDepth?_some hd
  obtain ⟨hread, hout, hrises⟩ := planeCells_some hcells
  have hsome := (planeCells_isSome s.pix d s.planeSize 0).mp (by simp [hcells])
  rw [Nat.zero_add] at hread hout hsome
  have hsample (i : Nat) (hi : i < s.planeSize) : (Memory.read p i).isSome = true ∧
      Memory.read p i = (Memory.read s.pix i).map (fun v : Pixel => v >>> (10 - s.depth.toNat)) := by
    have hcell := hread i (Nat.zero_le i) hi
    refine ⟨by rw [hcell, Option.isSome_map]; exact hsome i (Nat.zero_le i) hi, ?_⟩
    simp only [hcell, reduce, hval]
  exact { h with
    err_iff := by simpa [hs] using h.err_iff
    idle_zero := by simp
    pix_unspecified := by simp
    plane_iff := by simp
    request_fits := fun _ => h.request_fits (.inl hs)
    pix_defined := fun _ => h.pix_defined (.inl hs)
    done_checked := fun _ => ⟨hp, hn, hw, hh, hc, hd1, hd10⟩
    plane_samples := by
      rintro _ ⟨rfl⟩
      exact ⟨hrises none (by simp), hsample, fun i hi => hout i (.inr hi)⟩ }

/-- Every effect of an operation keeps the invariant. -/
theorem Effect.inv {s t : State} {i : Instr} (h : Effect s i t) (hs : s.Inv) : t.Inv := by
  cases h with
  | same _ r l => exact hs.of_ports s.input r l s.h s.freeCount
  | width _ _ _ hf | height _ _ _ hf | depth _ _ _ hf =>
    have hr := hs.atRest hf
    exact State.AtRest.inv ⟨hr.fsm, hr.err, hr.phase, hr.ngrp, hr.pix, hr.plane⟩
  | start hf hfit => exact (hs.atRest hf).inv_start hfit
  | hold _ hf h4 => exact hs.hold hf h4 _ _
  | group _ hf => exact hs.group hf (extract_le _ _ _ _ _) _
  | raise _ hf he => exact hs.raise hf he
  | done _ _ hf hp hn hw hh hc hd hcells => exact hs.done hf hp hn hw hh hc hd hcells _
  | clear => exact State.AtRest.inv ⟨rfl, rfl, rfl, rfl, rfl, rfl⟩

/-- Settles O44: a step changes ports only, or resets the core to rest, or has an effect of an operation. -/
theorem stepKeepsInvariant : Obligations.StepKeepsInvariant := by
  intro s t hs h
  rcases step_changes h with ⟨l, r, q, rfl⟩ | ⟨-, l, rfl⟩ | ⟨i, l, -, he⟩
  · exact hs.of_ports l r q s.h s.freeCount
  · exact State.AtRest.inv ⟨rfl, rfl, rfl, rfl, rfl, rfl⟩
  · exact he.inv (hs.of_ports l s.rsp s.lanes s.h s.freeCount)

/-- In DONE of the invariant every sample inside the plane exists. -/
theorem State.Inv.exists_planeRead {s : State} (h : s.Inv) (hs : s.fsm = .done) {r c : Nat} (hr : r < s.height.toNat)
    (hc : c < s.width.toNat) : ∃ v, s.planeRead r c = some v := by
  obtain ⟨p, hp⟩ := Option.isSome_iff_exists.mp (h.plane_iff.mpr hs)
  obtain ⟨-, hin, -⟩ := h.plane_samples p hp
  have hlt : sampleIndex s.width.toNat r c < s.planeSize :=
    calc r * s.width.toNat + c < (r + 1) * s.width.toNat := by rw [Nat.succ_mul]; omega
      _ ≤ s.height.toNat * s.width.toNat := Nat.mul_le_mul_right _ hr
      _ = s.planeSize := Nat.mul_comm _ _
  obtain ⟨v, hv⟩ := Option.isSome_iff_exists.mp (hin _ hlt).1
  exact ⟨v, by simp [State.planeRead, hp, hv]⟩

/-! ### The storage no response depends on -/

/-- Two outcomes are next states that look the same to the host. -/
def AnswerAlike (o o' : Host.Outcome State Fault Refusal) : Prop :=
  ∃ s t, o = .next s ∧ o' = .next t ∧ SameVisible s t

namespace SameVisible

variable {s t : State}

/-- A state that looks like `s` is `s` with other holding registers, another pixel store and another counter. -/
theorem exists_eq (hv : SameVisible s t) : ∃ b m n, t = { s with h := b, pix := m, freeCount := n } := by
  refine ⟨t.h, t.pix, t.freeCount, ?_⟩
  cases s
  cases t
  obtain ⟨rfl, rfl, rfl, rfl, rfl, rfl, rfl, rfl, rfl, rfl, rfl, rfl, -, -⟩ := hv
  rfl

theorem accept (hv : SameVisible s t) (d : Word64) : SameVisible (s.accept d) (t.accept d) :=
  { hv with rsp := rfl }

theorem reject (hv : SameVisible s t) : SameVisible s.reject t.reject :=
  { hv with rsp := rfl }

theorem next_input (hv : SameVisible s t) (l : List Input) :
    SameVisible { s with input := l } { t with input := l } :=
  { hv with input := rfl }

/-- Reset leaves IDLE, where nothing is in flight. -/
theorem hardReset (hv : SameVisible s t) : SameVisible s.hardReset t.hardReset := by
  obtain ⟨b, m, n, rfl⟩ := hv.exists_eq
  constructor <;> simp

/-- STATUS is made of visible fields (R30). -/
theorem status_eq (hv : SameVisible s t) : s.status = t.status := by
  unfold State.status
  rw [hv.phase, hv.err, hv.fsm]

/-- Every register is a visible field (R27). -/
theorem csrRead_eq (hv : SameVisible s t) (r : Csr) : s.csrRead r = t.csrRead r := by
  obtain ⟨b, m, n, rfl⟩ := hv.exists_eq
  cases r <;> rfl

theorem execNop_alike (hv : SameVisible s t) : AnswerAlike (execNop s) (execNop t) :=
  ⟨_, _, rfl, rfl, hv.accept _⟩

theorem execExtract_alike (hv : SameVisible s t) (b0 b1 b2 b3 b4 : Byte) :
    AnswerAlike (execExtract b0 b1 b2 b3 b4 s) (execExtract b0 b1 b2 b3 b4 t) :=
  ⟨_, _, rfl, rfl, { hv with lanes := rfl }⟩

theorem execRdcsr_alike (hv : SameVisible s t) (r : Csr) : AnswerAlike (execRdcsr r s) (execRdcsr r t) := by
  have heq := hv.csrRead_eq r
  cases hr : s.csrRead r with
  | none => exact ⟨_, _, execRdcsr_reject hr, execRdcsr_reject (heq ▸ hr), hv.reject⟩
  | some x => exact ⟨_, _, execRdcsr_read hr, execRdcsr_read (heq ▸ hr), hv.accept x⟩

/-- WRCSR writes visible fields (R133). -/
theorem execWrcsr_alike (hv : SameVisible s t) (r : Csr) (v : Word32) :
    AnswerAlike (execWrcsr r v s) (execWrcsr r v t) := by
  by_cases hs : s.fsm = .idle
  · have ht : t.fsm = .idle := hv.fsm ▸ hs
    cases r with
    | width =>
      exact ⟨_, _, execWrcsr_write hs rfl, execWrcsr_write ht rfl, { hv with width := rfl, rsp := rfl }⟩
    | height =>
      exact ⟨_, _, execWrcsr_write hs rfl, execWrcsr_write ht rfl, { hv with height := rfl, rsp := rfl }⟩
    | depth =>
      exact ⟨_, _, execWrcsr_write hs rfl, execWrcsr_write ht rfl, { hv with depth := rfl, rsp := rfl }⟩
    | status | ngrp | reserved =>
      exact ⟨_, _, execWrcsr_reject (.inr rfl), execWrcsr_reject (.inr rfl), hv.reject⟩
  · exact ⟨_, _, execWrcsr_reject (.inl hs), execWrcsr_reject (.inl (hv.fsm ▸ hs)), hv.reject⟩

/-- START reads the geometry and PIXCAP, and begins with no byte held and no pixel received. -/
theorem execStart_alike (hv : SameVisible s t) : AnswerAlike (execStart s) (execStart t) := by
  obtain ⟨b, m, n, rfl⟩ := hv.exists_eq
  by_cases hgo : s.fsm = .idle ∧ s.cfg.fits s.planeSize = true
  · refine ⟨_, _, execStart_accept hgo.1 hgo.2, execStart_accept hgo.1 hgo.2, ?_⟩
    constructor <;> simp [State.pixelCount]
  · exact ⟨_, _, execStart_reject hgo, execStart_reject hgo, hv.reject⟩

/-- A held byte makes one more holding register agree. -/
theorem held_set (hv : SameVisible s t) (hs : s.fsm = .run) (v : Byte) {j : Nat} (h4 : s.phase.toNat < 4) (hj4 : j < 4)
    (hj : j < s.phase.toNat + 1) : (s.h.set s.phase.toNat v).get j = (t.h.set s.phase.toNat v).get j := by
  rw [Hold.get_set _ _ _ _ h4 hj4, Hold.get_set _ _ _ _ h4 hj4]
  split
  · rfl
  · exact hv.held hs j hj4 (by omega)

/-- At phase 4 all four holding registers agree, so the group gives the same pixels. -/
theorem extract_eq (hv : SameVisible s t) (hs : s.fsm = .run) (h4 : 4 ≤ s.phase.toNat) (v : Byte) :
    extract s.h.b0 s.h.b1 s.h.b2 s.h.b3 v = extract t.h.b0 t.h.b1 t.h.b2 t.h.b3 v := by
  have hget (j : Nat) (hj : j < 4) : s.h.get j = t.h.get j := hv.held hs j hj (Nat.lt_of_lt_of_le hj h4)
  have h0 : s.h.b0 = t.h.b0 := hget 0 (by decide)
  have h1 : s.h.b1 = t.h.b1 := hget 1 (by decide)
  have h2 : s.h.b2 = t.h.b2 := hget 2 (by decide)
  have h3 : s.h.b3 = t.h.b3 := hget 3 (by decide)
  rw [h0, h1, h2, h3]

/-- The same group stored behind the same received pixels: the elements received agree with four more among them. -/
theorem received_storeQuad (hv : SameVisible s t) (hs : s.fsm = .run) (q : Quad) {i : Nat}
    (hi : i < s.pixelCount + 4) (hh : s.cfg.holds i = true) :
    Memory.read (storeQuad s.cfg s.pix s.pixelCount q) i = Memory.read (storeQuad s.cfg t.pix s.pixelCount q) i := by
  rw [read_storeQuad, read_storeQuad]
  split
  · rfl
  · rename_i hout
    refine hv.received hs i ?_ hh
    by_contra hge
    exact hout ⟨Nat.not_lt.mp hge, hi, hh⟩

/-- PUSH stores the same byte or the same group behind what already agrees (R96). -/
theorem execPush_alike (hv : SameVisible s t) (v : Byte) : AnswerAlike (execPush v s) (execPush v t) := by
  obtain ⟨b, m, n, rfl⟩ := hv.exists_eq
  by_cases hs : s.fsm = .run
  · rcases Nat.lt_or_ge s.phase.toNat 4 with h4 | h4
    · refine ⟨_, _, execPush_hold hs h4, execPush_hold hs h4, { hv with phase := rfl, rsp := rfl, held := ?_ }⟩
      intro _ j hj4 hj
      rw [State.accept_phase, phase_succ_toNat h4] at hj
      exact hv.held_set hs v h4 hj4 hj
    · have hq := hv.extract_eq hs h4 v
      refine ⟨_, _, execPush_group hs h4, execPush_group hs h4,
        { hv with ngrp := rfl, phase := rfl, rsp := rfl, held := ?_, received := ?_ }⟩
      · simp
      · intro _ i hi hh
        simp only [State.pixelCount, State.accept_ngrp, saturatingSucc_toNat] at hi
        have hi : i < s.pixelCount + 4 := by unfold State.pixelCount; omega
        exact (hv.received_storeQuad hs _ hi hh).trans (by rw [hq]; rfl)
  · exact ⟨_, _, execPush_reject hs, execPush_reject hs, hv.reject⟩

/-- After an error nothing is in flight any more. -/
theorem raise (hv : SameVisible s t) (e : RequestError) : SameVisible (s.raise e) (t.raise e) := by
  obtain ⟨b, m, n, rfl⟩ := hv.exists_eq
  constructor <;> simp

/-- In RUN of the invariant END finds every pixel it needs, the same in both states. -/
theorem planeCells_eq (hv : SameVisible s t) (hi : s.Inv) (hs : s.fsm = .run) (hc : s.pixelCount = s.planeSize)
    (d : LegalDepth) : ∃ p, planeCells s.pix d 0 s.planeSize = some p ∧ planeCells t.pix d 0 s.planeSize = some p := by
  have hlt {k : Nat} (hk : k < 0 + s.planeSize) : k < s.pixelCount ∧ s.cfg.holds k = true := by
    rw [Nat.zero_add] at hk
    exact ⟨hc ▸ hk, holds_of_fits (hi.request_fits (.inl hs)) hk⟩
  have hsome : (planeCells s.pix d 0 s.planeSize).isSome = true :=
    (planeCells_isSome ..).mpr fun k _ hk => hi.pix_defined (.inl hs) k (hlt hk).1 (hlt hk).2
  obtain ⟨p, hp⟩ := Option.isSome_iff_exists.mp hsome
  refine ⟨p, hp, ?_⟩
  rw [← hp]
  exact (planeCells_congr _ _ d _ 0 fun k _ hk => hv.received hs k (hlt hk).1 (hlt hk).2).symm

/-- END validates visible fields and assembles received pixels only (R116). -/
theorem execEndReq_alike (hv : SameVisible s t) (hi : s.Inv) : AnswerAlike (execEndReq s) (execEndReq t) := by
  obtain ⟨b, m, n, rfl⟩ := hv.exists_eq
  by_cases hs : s.fsm = .run
  case neg => exact ⟨_, _, execEndReq_reject hs, execEndReq_reject hs, hv.reject⟩
  by_cases hlen : s.phase ≠ 0#3 ∨ s.ngrp = 0#64
  case pos => exact ⟨_, _, execEndReq_length hs hlen, execEndReq_length hs hlen, hv.raise _⟩
  by_cases hshape : s.width = 0#32 ∨ s.height = 0#32 ∨ s.pixelCount ≠ s.planeSize
  case pos => exact ⟨_, _, execEndReq_shape hs hlen hshape, execEndReq_shape hs hlen hshape, hv.raise _⟩
  by_cases hd : 1 ≤ s.depth.toNat ∧ s.depth.toNat ≤ 10
  case neg =>
    have hd : s.depth.toNat = 0 ∨ 10 < s.depth.toNat := by omega
    exact ⟨_, _, execEndReq_depth hs hlen hshape hd, execEndReq_depth hs hlen hshape hd, hv.raise _⟩
  have hc : s.pixelCount = s.planeSize := by
    by_contra hne
    exact hshape (.inr (.inr hne))
  obtain ⟨p, hp, hp'⟩ := hv.planeCells_eq hi hs hc ⟨s.depth.toNat, hd⟩
  refine ⟨_, _, execEndReq_done hs hlen hshape hd hp, execEndReq_done hs hlen hshape hd hp', ?_⟩
  constructor <;> simp

/-- RDPIX reads the plane, which is visible; under the invariant the sample exists (R117). -/
theorem execRdpix_alike (hv : SameVisible s t) (hi : s.Inv) (row col : Word32) :
    AnswerAlike (execRdpix row col s) (execRdpix row col t) := by
  obtain ⟨b, m, n, rfl⟩ := hv.exists_eq
  by_cases hin : s.fsm = .done ∧ row.toNat < s.height.toNat ∧ col.toNat < s.width.toNat
  · obtain ⟨hs, hrow, hcol⟩ := hin
    obtain ⟨x, hx⟩ := hi.exists_planeRead hs hrow hcol
    exact ⟨_, _, execRdpix_sample hs hrow hcol hx, execRdpix_sample hs hrow hcol hx, hv.accept _⟩
  · exact ⟨_, _, execRdpix_reject hin, execRdpix_reject hin, hv.reject⟩

/-- CLEAR leaves IDLE, where nothing is in flight (R137). -/
theorem execClear_alike (hv : SameVisible s t) : AnswerAlike (execClear s) (execClear t) := by
  obtain ⟨b, m, n, rfl⟩ := hv.exists_eq
  by_cases hs : s.fsm = .run
  · exact ⟨_, _, execClear_reject hs, execClear_reject hs, hv.reject⟩
  · refine ⟨_, _, execClear_accept hs, execClear_accept hs, ?_⟩
    constructor <;> simp

/-- Every operation answers alike in two states that look the same. -/
theorem exec_alike (hv : SameVisible s t) (hi : s.Inv) (i : Instr) : AnswerAlike (exec i s) (exec i t) := by
  cases i with
  | nop => exact hv.execNop_alike
  | wrcsr r v => exact hv.execWrcsr_alike r v
  | rdcsr r => exact hv.execRdcsr_alike r
  | start => exact hv.execStart_alike
  | push v => exact hv.execPush_alike v
  | endReq => exact hv.execEndReq_alike hi
  | rdpix row col => exact hv.execRdpix_alike hi row col
  | clear => exact hv.execClear_alike
  | extract b0 b1 b2 b3 b4 => exact hv.execExtract_alike b0 b1 b2 b3 b4

/-- States that look the same take the same input, and each of its cases answers alike. -/
theorem step_alike (hv : SameVisible s t) (hi : s.Inv) : AnswerAlike (step s) (step t) := by
  have hin' := hv.input
  rcases step_cases s with ⟨hin, hs⟩ | ⟨rest, hin, hs⟩ | ⟨r, e, rest, hin, hd, hs⟩ | ⟨r, i, rest, hin, hd, hs⟩
  all_goals rw [hin] at hin'
  · exact ⟨_, _, hs, coreWaitsForCommand t hin'.symm, hv⟩
  · refine ⟨_, _, hs, ?_, (hv.next_input rest).hardReset⟩
    simp [step, State.advance, ← hin']
  · refine ⟨_, _, hs, ?_, (hv.next_input rest).reject⟩
    simp [step, State.advance, ← hin', State.perform, hd]
  · rw [hs, step_word hin'.symm hd]
    exact (hv.next_input rest).exec_alike (hi.of_ports rest s.rsp s.lanes s.h s.freeCount) i

/-- Runs of any length from states that look the same go on, and look the same. -/
theorem run_alike (hv : SameVisible s t) (hi : s.Inv) (n : Nat) :
    AnswerAlike (Host.Core.run core n s) (Host.Core.run core n t) := by
  induction n generalizing s t with
  | zero => exact ⟨s, t, rfl, rfl, hv⟩
  | succ n ih =>
    obtain ⟨s', t', hs, ht, hv'⟩ := hv.step_alike hi
    have hs : core.step s = .next s' := hs
    have ht : core.step t = .next t' := ht
    simp only [Host.Core.run, hs, ht]
    exact ih hv' (stepKeepsInvariant s s' hi hs)

end SameVisible

/-- Settles O47: the two steps answer alike, and the first answer is the given one. -/
theorem unspecifiedStorageUnobservable : Obligations.UnspecifiedStorageUnobservable := by
  intro s t s' hi hv h
  obtain ⟨u, t', hs, ht, hv'⟩ := hv.step_alike hi
  cases hs.symm.trans h
  exact ⟨t', ht, hv'⟩

/-- Two cores at rest look the same when WIDTH, HEIGHT, DEPTH, PIXCAP and the ports agree (R35). -/
theorem State.AtRest.sameVisible {s t : State} (hs : s.AtRest) (ht : t.AtRest) (hw : s.width = t.width)
    (hh : s.height = t.height) (hd : s.depth = t.depth) (hc : s.cfg = t.cfg) (hin : s.input = t.input)
    (hr : s.rsp = t.rsp) (hl : s.lanes = t.lanes) : SameVisible s t where
  fsm := hs.fsm.trans ht.fsm.symm
  err := hs.err.trans ht.err.symm
  phase := hs.phase.trans ht.phase.symm
  ngrp := hs.ngrp.trans ht.ngrp.symm
  width := hw
  height := hh
  depth := hd
  plane := hs.plane.trans ht.plane.symm
  cfg := hc
  input := hin
  rsp := hr
  lanes := hl
  held := by simp [hs.fsm]
  received := by simp [hs.fsm]

/-- Settles O48: in IDLE both cores are at rest, so they look the same, and their runs go on looking the same. -/
theorem outcomeIndependentOfHistory : Obligations.OutcomeIndependentOfHistory := by
  intro s t hs ht hsi hti hw hh hd hc hin hr hl n
  have hv := (hs.atRest hsi).sameVisible (ht.atRest hti) hw hh hd hc hin hr hl
  obtain ⟨s', t', hs', ht', hv'⟩ := hv.run_alike hs n
  exact ⟨s', t', hs', ht', hv'.rsp, hv'.lanes, hv'.status_eq, hv'.ngrp, hv'.plane⟩

end Sys2Proof.Machine
end

section
/-! PROOFS. The memory (20_memory.md): what writes the configuration registers, and what a read depends on. -/
namespace Sys2Proof.Machine

/-- An operation keeps WIDTH, HEIGHT and DEPTH, or it is a WRCSR performed in IDLE (R64, R133). -/
theorem Effect.configuration_eq_or_wrcsr {s t : State} {i : Instr} (h : Effect s i t) :
    (t.width = s.width ∧ t.height = s.height ∧ t.depth = s.depth) ∨ (s.fsm = .idle ∧ ∃ r v, i = .wrcsr r v) := by
  cases h with
  | same | start | hold | group | raise | done => exact .inl ⟨rfl, rfl, rfl⟩
  | clear => exact .inl ⟨s.acknowledge_width, s.acknowledge_height, s.acknowledge_depth⟩
  | width r v _ hs | height r v _ hs | depth r v _ hs => exact .inr ⟨hs, r, v, rfl⟩

/-- Settles O34: a change of the ports is no change of the configuration, and of the operations only WRCSR makes one. -/
theorem configurationFixedDuringRequest : Obligations.ConfigurationFixedDuringRequest := by
  intro s t h hne
  rcases step_changes h with ⟨_, _, _, rfl⟩ | ⟨hr, _, rfl⟩ | ⟨i, _, hi, he⟩
  · exact absurd ⟨rfl, rfl, rfl⟩ hne
  · exact .inl hr
  · rcases he.configuration_eq_or_wrcsr with hsame | ⟨hs, r, v, rfl⟩
    · exact absurd hsame hne
    · exact .inr ⟨hs, r, v, hi⟩

/-- RDCSR changes only the response (R135). -/
theorem execRdcsr_frame {r : Csr} {s t : State} (h : execRdcsr r s = .next t) : t = { s with rsp := t.rsp } := by
  rcases execRdcsr_next h with ⟨-, rfl⟩ | ⟨v, -, rfl⟩ <;> rfl

/-- RDPIX changes only the response (R117). -/
theorem execRdpix_frame {row col : Word32} {s t : State} (h : execRdpix row col s = .next t) :
    t = { s with rsp := t.rsp } := by
  rcases execRdpix_next h with rfl | ⟨-, -, -, v, -, rfl⟩ <;> rfl

/-- What RDCSR answers does not depend on the response before it. -/
theorem execRdcsr_with_rsp (r : Csr) (s : State) (q : Option Response) :
    execRdcsr r { s with rsp := q } = execRdcsr r s := by
  cases r <;> rfl

/-- What RDPIX answers does not depend on the response before it. -/
theorem execRdpix_with_rsp (row col : Word32) (s : State) (q : Option Response) :
    execRdpix row col { s with rsp := q } = execRdpix row col s := rfl

/-- An operation that changes only the response and does not depend on it may be repeated. -/
theorem exec_again {i : Instr} {s t : State} (h : exec i s = .next t) (hframe : t = { s with rsp := t.rsp })
    (hblind : exec i { s with rsp := t.rsp } = exec i s) : exec i t = .next t :=
  calc exec i t = exec i { s with rsp := t.rsp } := congrArg (exec i) hframe
    _ = exec i s := hblind
    _ = .next t := h

/-- Settles O41: each read changes only the response, on which no read depends. -/
theorem readsAreIdempotent : Obligations.ReadsAreIdempotent := by
  rintro s t _ (⟨r, rfl⟩ | ⟨row, col, rfl⟩) h
  · exact ⟨execRdcsr_frame h, exec_again h (execRdcsr_frame h) (execRdcsr_with_rsp r s t.rsp)⟩
  · exact ⟨execRdpix_frame h, exec_again h (execRdpix_frame h) (execRdpix_with_rsp row col s t.rsp)⟩

end Sys2Proof.Machine
end

section
/-! PROOFS. The encoding (30_encoding.md): decoding undoes encoding, group words are read without loss, and the reserved
operation codes are refused and rejected. -/
namespace Sys2Proof.Machine

/-! ### What each operation code decodes to -/

theorem decode_op_nop (a b : Word32) : decode (.command (commandWord 0 a b)) = .ok .nop :=
  decodeCommand_commandWord 0 a b

theorem decode_op_wrcsr (a b : Word32) :
    decode (.command (commandWord 1 a b)) = .ok (.wrcsr (Csr.ofNumber a) b) :=
  decodeCommand_commandWord 1 a b

theorem decode_op_rdcsr (a b : Word32) :
    decode (.command (commandWord 2 a b)) = .ok (.rdcsr (Csr.ofNumber a)) :=
  decodeCommand_commandWord 2 a b

theorem decode_op_start (a b : Word32) : decode (.command (commandWord 3 a b)) = .ok .start :=
  decodeCommand_commandWord 3 a b

theorem decode_op_push (a b : Word32) :
    decode (.command (commandWord 4 a b)) = .ok (.push (b.extractLsb' 0 8)) :=
  decodeCommand_commandWord 4 a b

theorem decode_op_endReq (a b : Word32) : decode (.command (commandWord 5 a b)) = .ok .endReq :=
  decodeCommand_commandWord 5 a b

theorem decode_op_rdpix (a b : Word32) : decode (.command (commandWord 6 a b)) = .ok (.rdpix a b) :=
  decodeCommand_commandWord 6 a b

theorem decode_op_clear (a b : Word32) : decode (.command (commandWord 7 a b)) = .ok .clear :=
  decodeCommand_commandWord 7 a b

/-- Codes 8 to 15 are the reserved ones (R78). -/
theorem decode_op_reserved {op : BitVec 4} (h : 8 ≤ op.toNat) (a b : Word32) :
    decode (.command (commandWord op a b)) = .error (.reservedOp op) := by
  refine (decodeCommand_commandWord op a b).trans ?_
  split
  case h_9 => rfl
  all_goals omega

/-! ### Decoding and encoding -/

/-- Settles O3: each command is decoded by its operation code; a register is read back from its number, a byte from the
low byte of its operand, and a group from its five bytes. -/
theorem decodeOfEncode : Obligations.DecodeOfEncode := by
  intro i hi
  cases i with
  | nop => exact decode_op_nop 0 0
  | wrcsr r v =>
    have hr : Csr.ofNumber r.number = r := Csr.ofNumber_number r hi
    exact (decode_op_wrcsr r.number v).trans (by rw [hr])
  | rdcsr r =>
    have hr : Csr.ofNumber r.number = r := Csr.ofNumber_number r hi
    exact (decode_op_rdcsr r.number 0).trans (by rw [hr])
  | start => exact decode_op_start 0 0
  | push v => exact (decode_op_push 0 (v.setWidth 32)).trans (by rw [lowByte_setWidth])
  | endReq => exact decode_op_endReq 0 0
  | rdpix row col => exact decode_op_rdpix row col
  | clear => exact decode_op_clear 0 0
  | extract b0 b1 b2 b3 b4 => exact congrArg Except.ok (decodeGroup_groupWord b0 b1 b2 b3 b4)

/-- Settles O4: the bytes read from the word are the bytes it is made of. -/
theorem everyGroupWordLegal : Obligations.EveryGroupWordLegal :=
  fun g => ⟨_, _, _, _, _, rfl, congrArg Raw.group (groupWord_bytes g)⟩

/-- The operation code is what stands above the low 64 bits (R72). -/
theorem opField_toNat (w : CmdWord) : (opField w).toNat = w.toNat / 2 ^ 64 := by
  rw [opField, extract_toNat]
  have := w.isLt
  omega

/-- Only the register operand of WRCSR and RDCSR could be ill-formed, and the decoder reads it from a number. -/
theorem wellFormed_of_decode {r : Raw} {i : Instr} (h : decode r = .ok i) : i.WellFormed := by
  cases r with
  | group g => cases h; rfl
  | command w =>
    simp only [decode, decodeCommand] at h
    split at h <;> cases h
    case h_2 | h_3 => exact Csr.ofNumber_wellFormed (aField w)
    all_goals rfl

/-- Codes 0 to 7 all name a command (R76). -/
theorem decode_command_of_op_lt {w : CmdWord} (h : (opField w).toNat < 8) :
    ∃ i, decode (.command w) = .ok i := by
  simp only [decode, decodeCommand]
  interval_cases (opField w).toNat <;> exact ⟨_, rfl⟩

/-- The decoder refuses the reserved operation codes and no others (R76, R78). -/
theorem decode_command_refused_iff (w : CmdWord) :
    (∃ e, decode (.command w) = .error e) ↔ 8 ≤ (opField w).toNat := by
  constructor
  · rintro ⟨e, he⟩
    by_contra hlt
    obtain ⟨i, hi⟩ := decode_command_of_op_lt (Nat.lt_of_not_le hlt)
    cases he.symm.trans hi
  · intro h
    have hd := decode_op_reserved h (aField w) (bField w)
    rw [commandWord_fields] at hd
    exact ⟨_, hd⟩

/-- Settles O5: bits 67:64 are the operation code, which alone decides whether a command is refused. -/
theorem decoderTotalAndWellFormed : Obligations.DecoderTotalAndWellFormed := by
  refine ⟨fun r i h => wellFormed_of_decode h, fun w => ?_⟩
  rw [decode_command_refused_iff, opField_toNat]

/-- Settles O1: each command is the word of its three fields, and the group word is the word of its five bytes. -/
theorem sampleWordsDecode : Obligations.SampleWordsDecode :=
  ⟨decode_op_nop 0 0, decode_op_wrcsr 2 8, decode_op_rdcsr 3 0, decode_op_start 0 0, decode_op_push 0 0xFF,
    decode_op_endReq 0 0, decode_op_rdpix 1 3, decode_op_clear 0 0,
    congrArg Except.ok (decodeGroup_groupWord 0xFF 0x00 0xAA 0x55 0xE4)⟩

/-- Settles O2: the row of each operation code; the byte of PUSH is the low byte of `b`. -/
theorem operationCodeSelectsCommand : Obligations.OperationCodeSelectsCommand := by
  intro a b
  have hbyte : (b.extractLsb' 0 8).toNat = b.toNat % 256 := by
    rw [extract_toNat]
    omega
  exact ⟨decode_op_nop a b, decode_op_wrcsr a b, decode_op_rdcsr a b, decode_op_start a b,
    ⟨_, hbyte, decode_op_push a b⟩, decode_op_endReq a b, decode_op_rdpix a b, decode_op_clear a b,
    fun _ hop => decode_op_reserved hop a b⟩

/-! ### Reserved operation codes -/

/-- A word the decoder refuses is rejected and taken from the input (R78). -/
theorem step_word_refused {s : State} {r : Raw} {e : DecodeError} {rest : List Input}
    (hin : s.input = .word r :: rest) (hd : decode r = .error e) :
    step s = .next (State.reject { s with input := rest }) := by
  simp [step, State.advance, hin, State.perform, hd]

/-- Settles O8: the decoder refuses the word, and a rejection changes only the response. -/
theorem reservedCodeRejected : Obligations.ReservedCodeRejected :=
  fun _ _ a b _ hop hin => step_word_refused hin (decode_op_reserved hop a b)

end Sys2Proof.Machine
end

section
/-! PROOFS. The Unpacker (40_unpack.md): the pixels of a group and of a buffer, and the bytes PUSH receives. -/
namespace Sys2Proof.Machine

/-! ### The pixels of a group -/

/-- The four pixels of a group as numbers (R90). -/
theorem extract_toNat_lanes (b0 b1 b2 b3 b4 : Byte) :
    (extract b0 b1 b2 b3 b4).p0.toNat = 4 * b0.toNat + b4.toNat % 4 ∧
    (extract b0 b1 b2 b3 b4).p1.toNat = 4 * b1.toNat + b4.toNat / 4 % 4 ∧
    (extract b0 b1 b2 b3 b4).p2.toNat = 4 * b2.toNat + b4.toNat / 16 % 4 ∧
    (extract b0 b1 b2 b3 b4).p3.toNat = 4 * b3.toNat + b4.toNat / 64 % 4 := by
  have h0 := lanePixel_toNat b0 b4 0
  rw [pow_zero, Nat.div_one] at h0
  exact ⟨h0, lanePixel_toNat b1 b4 1, lanePixel_toNat b2 b4 2, lanePixel_toNat b3 b4 3⟩

/-- A pixel is its byte followed by its two bits of the fifth byte (R90). -/
theorem lanePixel_eq_append (x b : Byte) (k : Nat) :
    lanePixel x b k = (x ++ b.extractLsb' (2 * k) 2).setWidth 16 := by
  apply BitVec.eq_of_toNat_eq
  have hk : (2 : Nat) ^ (2 * k) = 4 ^ k := pow_mul 2 2 k
  rw [lanePixel_toNat, BitVec.toNat_setWidth, toNat_append_eq_add, extract_toNat, hk]
  have := x.isLt
  omega

/-- A pixel depends only on its byte and its two bits of the fifth byte (R91). -/
theorem lanePixel_congr {x y b c : Byte} {k : Nat} (hbyte : x = y)
    (hbits : b.extractLsb' (2 * k) 2 = c.extractLsb' (2 * k) 2) : lanePixel x b k = lanePixel y c k := by
  rw [lanePixel_eq_append, lanePixel_eq_append, hbyte, hbits]

/-- Settles O19: EXTRACT writes the pixels to the lanes. -/
theorem extractGivesFourPixels : Obligations.ExtractGivesFourPixels :=
  fun _ b0 b1 b2 b3 b4 => ⟨extract b0 b1 b2 b3 b4, rfl, extract_toNat_lanes b0 b1 b2 b3 b4⟩

/-- Settles O17: the sums, the concatenations, the range, and the group word; the mask of the fourth lane is redundant. -/
theorem extractFormulas : Obligations.ExtractFormulas := by
  intro b0 b1 b2 b3 b4
  obtain ⟨h0, h1, h2, h3⟩ := extract_toNat_lanes b0 b1 b2 b3 b4
  have hmask : b4.toNat / 64 % 4 = b4.toNat / 64 := by
    have := b4.isLt
    omega
  rw [hmask] at h3
  exact ⟨h0, h1, h2, h3, lanePixel_eq_append b0 b4 0, lanePixel_eq_append b1 b4 1, lanePixel_eq_append b2 b4 2,
    lanePixel_eq_append b3 b4 3, extract_le b0 b1 b2 b3 b4, congrArg Except.ok (decodeGroup_groupWord b0 b1 b2 b3 b4)⟩

/-- Settles O18: each lane is a function of its byte and its two bits. -/
theorem lanesIndependent : Obligations.LanesIndependent :=
  fun _ _ _ _ _ _ _ _ _ _ =>
    ⟨lanePixel_congr (k := 0), lanePixel_congr (k := 1), lanePixel_congr (k := 2), lanePixel_congr (k := 3)⟩

/-! ### The pixels of a buffer -/

/-- A buffer with an incomplete group, or with none, is refused (R93). -/
theorem unpack_error {buf : List Byte} (h : buf.length = 0 ∨ buf.length % 5 ≠ 0) :
    unpack buf = .error .invalidBufferLength := if_pos h

/-- A buffer of complete groups gives their pixels (R93). -/
theorem unpack_ok {buf : List Byte} (h0 : buf.length ≠ 0) (h5 : buf.length % 5 = 0) :
    unpack buf = .ok (groupPixels buf) := if_neg (by omega)

/-- Settles O20: the pixels of the complete groups, by their number, their range and their place. -/
theorem unpackGroupsInOrder : Obligations.UnpackGroupsInOrder :=
  fun buf => ⟨unpack_error, fun h0 h5 =>
    ⟨groupPixels buf, unpack_ok h0 h5, groupPixels_length buf, groupPixels_le buf, groupPixels_get buf⟩⟩

/-- After complete groups a buffer goes on as if it began there (R50, R53). -/
theorem groupPixels_append : ∀ {buf : List Byte}, buf.length % 5 = 0 → ∀ more : List Byte,
    groupPixels (buf ++ more) = groupPixels buf ++ groupPixels more
  | [], _, _ => rfl
  | b0 :: b1 :: b2 :: b3 :: b4 :: rest, h, more => by
    have hrest : rest.length % 5 = 0 := by
      simp only [List.length_cons] at h
      omega
    simp only [List.cons_append, groupPixels, groupPixels_append hrest more, List.append_assoc]
  | [_], h, _ | [_, _], h, _ | [_, _, _], h, _ | [_, _, _, _], h, _ => by simp at h

/-! ### PUSH -/

/-- PUSH at a phase `p` below 4 writes `H[p]` and counts one up (R96). -/
theorem execPush_hold_at {s : State} {v : Byte} {p : BitVec 3} (hs : s.fsm = .run) (hp : s.phase = p)
    (h4 : p.toNat < 4) : execPush v s =
      .next { s with h := s.h.set p.toNat v, phase := p + 1#3, rsp := some ⟨true, 0#64⟩ } := by
  subst hp
  exact execPush_hold hs h4

/-- Storing a group puts pixel `k` at its index, if the store has that index (R96). -/
theorem read_storeQuad_lane {c : Config} {m : Memory} {i k : Nat} {q : Quad} (hk : k < 4)
    (hh : c.holds (i + k) = true) : Memory.read (storeQuad c m i q) (i + k) = q.toList[k]? := by
  rw [read_storeQuad, if_pos ⟨by omega, by omega, hh⟩, Nat.add_sub_cancel_left]

/-- Storing a group leaves every other index, and every index the store does not have, as it was (R96). -/
theorem read_storeQuad_outside {c : Config} {m : Memory} {i j : Nat} {q : Quad}
    (h : j < i ∨ i + 4 ≤ j ∨ c.holds j ≠ true) : Memory.read (storeQuad c m i q) j = Memory.read m j := by
  rw [read_storeQuad, if_neg]
  rintro ⟨hge, hlt, hh⟩
  rcases h with h | h | h
  · omega
  · omega
  · exact h hh

/-- Settles O16: the rejection, the four held bytes, and the group stored at `4 * NGRP`. -/
theorem pushTakesByte : Obligations.PushTakesByte := by
  refine ⟨fun a b => ?_, fun s v => ⟨execPush_reject, fun hs hp => execPush_hold_at hs hp (by decide),
    fun hs hp => execPush_hold_at hs hp (by decide), fun hs hp => execPush_hold_at hs hp (by decide),
    fun hs hp => execPush_hold_at hs hp (by decide), fun hs h4 => ?_⟩⟩
  · obtain ⟨-, -, -, -, hpush, -⟩ := operationCodeSelectsCommand a b
    exact hpush
  · have hn : BitVec.ofNat 64 (min (s.ngrp.toNat + 1) (2 ^ 64 - 1)) = saturatingSucc s.ngrp := by
      rw [← saturatingSucc_toNat, BitVec.ofNat_toNat, BitVec.setWidth_eq]
    refine ⟨_, hn ▸ execPush_group hs h4, fun k hk hcap => read_storeQuad_lane hk ((holds_iff _ _).mpr hcap),
      fun i hi => read_storeQuad_outside ?_⟩
    rcases hi with hi | hi | ⟨cap, hcap, hi⟩
    · exact .inl hi
    · exact .inr (.inl hi)
    · exact .inr (.inr fun hh => Nat.not_lt.mpr hi ((holds_iff _ _).mp hh cap hcap))

/-! ### What RUN holds -/

/-- RUN holds the pixels of the complete groups `groups` where PIX has room for them, and the bytes `part` of the group
in flight (R97). -/
structure State.HoldsBytes (s : State) (groups part : List Byte) : Prop where
  fsm : s.fsm = .run
  ngrp : groups.length = 5 * s.ngrp.toNat
  phase : part.length = s.phase.toNat
  incomplete : part.length < 5
  pixels : ∀ i, i < 4 * s.ngrp.toNat → s.cfg.holds i = true → Memory.read s.pix i = (groupPixels groups)[i]?
  held : ∀ j, j < part.length → some (s.h.get j) = part[j]?

/-- The bytes received in this request are `B`. -/
def State.Received (s : State) (B : List Byte) : Prop := ∃ groups part, groups ++ part = B ∧ s.HoldsBytes groups part

/-- The byte an operation pushes. -/
def pushedByte : Instr → Option Byte
  | .push v => some v
  | _ => none

theorem eq_push_of_pushedByte {i : Instr} {v : Byte} (h : pushedByte i = some v) : i = .push v := by
  unfold pushedByte at h
  split at h <;> cases h
  rfl

/-- A byte before the fifth is held behind the others. -/
theorem State.HoldsBytes.hold {s : State} {groups part : List Byte} (h : s.HoldsBytes groups part)
    (h4 : s.phase.toNat < 4) (v : Byte) (d : Word64) :
    State.HoldsBytes (State.accept { s with h := s.h.set s.phase.toNat v, phase := s.phase + 1#3 } d)
      groups (part ++ [v]) where
  fsm := h.fsm
  ngrp := h.ngrp
  phase := by simp [phase_succ_toNat h4, h.phase]
  incomplete := by
    have := h.phase
    simp
    omega
  pixels := h.pixels
  held := by
    intro j hj
    have hphase := h.phase
    simp only [List.length_append, List.length_singleton] at hj
    rw [State.accept_h, Hold.get_set _ _ _ _ h4 (by omega)]
    rcases Nat.lt_or_ge j part.length with hlt | hge
    · rw [if_neg (by omega), h.held j hlt, List.getElem?_append_left hlt]
    · have hj : j = part.length := by omega
      rw [if_pos (by omega), hj, List.getElem?_concat_length]

/-- At phase 4 the bytes of the group in flight are the four holding registers. -/
theorem State.HoldsBytes.part_eq {s : State} {groups part : List Byte} (h : s.HoldsBytes groups part)
    (h4 : 4 ≤ s.phase.toNat) : part = [s.h.b0, s.h.b1, s.h.b2, s.h.b3] := by
  have hlen : part.length = 4 := by
    have := h.phase
    have := h.incomplete
    omega
  refine List.ext_getElem? fun j => ?_
  match j with
  | 0 => exact (h.held 0 (by omega)).symm
  | 1 => exact (h.held 1 (by omega)).symm
  | 2 => exact (h.held 2 (by omega)).symm
  | 3 => exact (h.held 3 (by omega)).symm
  | j + 4 => rw [List.getElem?_eq_none (by omega), List.getElem?_eq_none (by simp)]

/-- A group stored behind `n` pixels received makes `n + 4` of them (R96). -/
theorem read_storeQuad_append {c : Config} {m : Memory} {n : Nat} {ps : List Pixel} (q : Quad) (hlen : ps.length = n)
    (hm : ∀ i, i < n → c.holds i = true → Memory.read m i = ps[i]?) (i : Nat) (hi : i < n + 4)
    (hh : c.holds i = true) : Memory.read (storeQuad c m n q) i = (ps ++ q.toList)[i]? := by
  rcases Nat.lt_or_ge i n with hlt | hge
  · rw [read_storeQuad_outside (.inl hlt), List.getElem?_append_left (by omega)]
    exact hm i hlt hh
  · obtain ⟨k, rfl⟩ := Nat.exists_eq_add_of_le hge
    rw [read_storeQuad_lane (by omega) hh, List.getElem?_append_right (by omega), hlen, Nat.add_sub_cancel_left]

/-- The fifth byte completes the group, whose pixels are stored behind the others. -/
theorem State.HoldsBytes.group {s : State} {groups part : List Byte} (h : s.HoldsBytes groups part)
    (h4 : 4 ≤ s.phase.toNat) (hn : s.ngrp.toNat < 2 ^ 64 - 1) (v : Byte) (d : Word64) :
    State.HoldsBytes (State.accept
      { s with
        pix := storeQuad s.cfg s.pix s.pixelCount (extract s.h.b0 s.h.b1 s.h.b2 s.h.b3 v)
        ngrp := saturatingSucc s.ngrp
        phase := 0#3 } d) (groups ++ (part ++ [v])) [] where
  fsm := h.fsm
  ngrp := by
    rw [State.accept_ngrp, saturatingSucc_toNat, h.part_eq h4, List.length_append, h.ngrp]
    simp only [List.length_append, List.length_cons, List.length_nil]
    omega
  phase := rfl
  incomplete := by simp
  pixels := by
    intro i hi hh
    have hlen := h.ngrp
    have hcount : (groupPixels groups).length = s.pixelCount := by
      rw [groupPixels_length, hlen, Nat.mul_div_cancel_left _ (by decide), State.pixelCount]
    have hi : i < s.pixelCount + 4 := by
      rw [State.accept_ngrp, saturatingSucc_toNat] at hi
      unfold State.pixelCount
      omega
    have hfifth : groupPixels (part ++ [v]) = (extract s.h.b0 s.h.b1 s.h.b2 s.h.b3 v).toList := by
      rw [h.part_eq h4]
      rfl
    rw [groupPixels_append (by omega), hfifth]
    exact read_storeQuad_append _ hcount h.pixels i hi hh
  held := by simp

/-- PUSH receives its byte, as long as NGRP does not saturate (R96). -/
theorem State.Received.push {s : State} {B : List Byte} (h : s.Received B) (v : Byte)
    (hB : (B ++ [v]).length < 5 * (2 ^ 64 - 1)) :
    ∃ t, execPush v s = .next t ∧ t.input = s.input ∧ t.cfg = s.cfg ∧ t.Received (B ++ [v]) := by
  obtain ⟨groups, part, rfl, hh⟩ := h
  rcases Nat.lt_or_ge s.phase.toNat 4 with h4 | h4
  · exact ⟨_, execPush_hold hh.fsm h4, rfl, rfl, groups, part ++ [v], (List.append_assoc ..).symm, hh.hold h4 v _⟩
  · have hn : s.ngrp.toNat < 2 ^ 64 - 1 := by
      have := hh.ngrp
      simp only [List.length_append, List.length_singleton] at hB
      omega
    exact ⟨_, execPush_group hh.fsm h4, rfl, rfl, groups ++ (part ++ [v]), [], by simp,
      hh.group h4 hn v _⟩

/-- In RUN every operation but PUSH and END changes the response and the lanes only (R130). -/
theorem exec_in_run {s : State} {i : Instr} (hs : s.fsm = .run) (hpush : pushedByte i = none) (hend : i ≠ .endReq) :
    ∃ r l, exec i s = .next { s with rsp := r, lanes := l } := by
  cases i with
  | nop => exact ⟨_, _, rfl⟩
  | wrcsr r v => exact ⟨_, _, execWrcsr_reject (.inl (by simp [hs]))⟩
  | rdcsr r =>
    cases hr : s.csrRead r with
    | none => exact ⟨_, _, execRdcsr_reject hr⟩
    | some x => exact ⟨_, _, execRdcsr_read hr⟩
  | start => exact ⟨_, _, execStart_reject (by simp [hs])⟩
  | push v => cases hpush
  | endReq => exact absurd rfl hend
  | rdpix row col => exact ⟨_, _, execRdpix_reject (by simp [hs])⟩
  | clear => exact ⟨_, _, execClear_reject hs⟩
  | extract b0 b1 b2 b3 b4 => exact ⟨_, _, rfl⟩

/-- The bytes received do not depend on the ports. -/
theorem State.Received.of_ports {s : State} {B : List Byte} (h : s.Received B) (l : List Input) (r : Option Response)
    (q : Option Quad) : State.Received { s with input := l, rsp := r, lanes := q } B := by
  obtain ⟨groups, part, hB, hh⟩ := h
  exact ⟨groups, part, hB, hh.fsm, hh.ngrp, hh.phase, hh.incomplete, hh.pixels, hh.held⟩

/-- Every operation but END goes on in RUN, and receives the byte it pushes, if it pushes one. -/
theorem State.Received.exec {s : State} {B : List Byte} {i : Instr} (h : s.Received B) (hend : i ≠ .endReq)
    (hB : (B ++ (pushedByte i).toList).length < 5 * (2 ^ 64 - 1)) :
    ∃ t, Machine.exec i s = .next t ∧ t.input = s.input ∧ t.cfg = s.cfg ∧
      t.Received (B ++ (pushedByte i).toList) := by
  cases hp : pushedByte i with
  | some v =>
    rw [hp] at hB
    obtain rfl := eq_push_of_pushedByte hp
    exact h.push v hB
  | none =>
    have hs : s.fsm = .run := by
      obtain ⟨_, _, -, hh⟩ := h
      exact hh.fsm
    obtain ⟨r, q, hexec⟩ := exec_in_run hs hp hend
    exact ⟨_, hexec, rfl, rfl, by simpa using h.of_ports s.input r q⟩

/-- A run that begins with an issued operation performs it and goes on (R61). -/
theorem run_issue_succ {s t : State} {i : Instr} {rest : List Input} (hi : i.WellFormed)
    (hin : s.input = issue i :: rest) (hexec : exec i { s with input := rest } = .next t) (n : Nat) :
    Host.Core.run core (n + 1) s = Host.Core.run core n t := by
  have hstep : core.step s = .next t := (step_word hin (decodeOfEncode i hi)).trans hexec
  simp [Host.Core.run, hstep]

/-- Issued operations, none of them END, receive the bytes they push, in order. -/
theorem State.Received.run {s : State} {B : List Byte} (h : s.Received B) {cs : List Instr} {rest : List Input}
    (hcs : ∀ i ∈ cs, i.WellFormed ∧ i ≠ .endReq) (hin : s.input = cs.map issue ++ rest)
    (hB : (B ++ cs.filterMap pushedByte).length < 5 * (2 ^ 64 - 1)) :
    ∃ t, Host.Core.run core cs.length s = .next t ∧ t.input = rest ∧ t.cfg = s.cfg ∧
      t.Received (B ++ cs.filterMap pushedByte) := by
  induction cs generalizing s B with
  | nil => exact ⟨s, rfl, hin, rfl, by simpa using h⟩
  | cons i cs ih =>
    obtain ⟨hwf, hend⟩ := hcs i List.mem_cons_self
    have hbytes : B ++ (i :: cs).filterMap pushedByte = B ++ (pushedByte i).toList ++ cs.filterMap pushedByte := by
      cases hp : pushedByte i <;> simp [hp]
    rw [hbytes] at hB ⊢
    have hB1 : (B ++ (pushedByte i).toList).length < 5 * (2 ^ 64 - 1) := by
      rw [List.length_append] at hB
      omega
    obtain ⟨u, hexec, hu, hcfg, hrec⟩ := (h.of_ports (cs.map issue ++ rest) s.rsp s.lanes).exec hend hB1
    obtain ⟨t, hrun, ht, htcfg, hfin⟩ := ih hrec (fun j hj => hcs j (List.mem_cons_of_mem i hj)) hu hB
    exact ⟨t, (run_issue_succ hwf hin hexec cs.length).trans hrun, ht, htcfg.trans hcfg, hfin⟩

/-- START in IDLE of a request that fits has received nothing (R134). -/
theorem received_start {s : State} (hs : s.fsm = .idle) (hfit : s.cfg.fits s.planeSize = true) :
    ∃ t, exec .start s = .next t ∧ t.input = s.input ∧ t.cfg = s.cfg ∧ t.Received [] :=
  ⟨_, execStart_accept hs hfit, rfl, rfl, [], [], rfl, rfl, rfl, rfl, by simp, by simp, by simp⟩

/-- What has been received, read off the registers and the pixel store (R97). -/
theorem State.Received.contents {s : State} {B : List Byte} (h : s.Received B) :
    s.fsm = .run ∧ s.phase.toNat = B.length % 5 ∧ s.ngrp.toNat = B.length / 5 ∧
      (5 ≤ B.length → ∃ ps, unpack (B.take (5 * (B.length / 5))) = .ok ps ∧
        ∀ i, i < 4 * (B.length / 5) → s.cfg.holds i = true → Memory.read s.pix i = ps[i]?) ∧
      ∀ j, j < B.length % 5 → some (s.h.get j) = B[5 * (B.length / 5) + j]? := by
  obtain ⟨groups, part, rfl, hh⟩ := h
  have hlt := hh.incomplete
  have hgroups := hh.ngrp
  have hmod : (groups ++ part).length % 5 = part.length := by
    rw [List.length_append]
    omega
  have hdiv : (groups ++ part).length / 5 = s.ngrp.toNat := by
    rw [List.length_append]
    omega
  rw [hmod, hdiv, ← hgroups]
  refine ⟨hh.fsm, hh.phase.symm, rfl, fun h5 => ⟨groupPixels groups, ?_, hh.pixels⟩, fun j hj => ?_⟩
  · rw [List.take_left]
    rw [List.length_append] at h5
    exact unpack_ok (by omega) (by omega)
  · rw [List.getElem?_append_right (by omega), Nat.add_sub_cancel_left]
    exact hh.held j hj

/-- Settles O49: START has received nothing, every operation receives the byte it pushes, and what has been received is
what RUN holds. -/
theorem runHoldsWhatWasPushed : Obligations.RunHoldsWhatWasPushed := by
  intro s cs rest B hs hfit hcs hB hlen hin
  have hB : B = [] ++ cs.filterMap pushedByte := hB
  obtain ⟨u, hexec, hu, hcfg, hrec⟩ :=
    received_start (s := { s with input := cs.map issue ++ rest }) hs hfit
  obtain ⟨t, hrun, ht, htcfg, hfin⟩ := hrec.run hcs hu (hB ▸ hlen)
  rw [← hB] at hfin
  have hcfg : t.cfg = s.cfg := htcfg.trans hcfg
  obtain ⟨hf, hphase, hngrp, hpix, hheld⟩ := hfin.contents
  rw [hcfg] at hpix
  exact ⟨t, (run_issue_succ rfl hin hexec cs.length).trans hrun, hf, ht, hphase, hngrp, hpix, hheld⟩

end Sys2Proof.Machine
end

section
/-! PROOFS. The Plane Assembler (41_assemble.md): the reducer, the reference functions assemble and convert, END and RDPIX,
and the commands that carry out convert and read the plane. -/
namespace Sys2Proof.Machine

/-! ### The reducer -/

/-- The bits reducing drops and the bits it keeps are the ten of a pixel (R112). -/
theorem two_pow_depth_mul (d : LegalDepth) : 2 ^ (10 - d.val) * 2 ^ d.val = 1024 := by
  rw [← pow_add, Nat.sub_add_cancel d.property.2]
  rfl

/-- A value of 10 bits is reduced to one of `d` bits (R112). -/
theorem reduce_le {v : Pixel} (d : LegalDepth) (hv : v.toNat ≤ 1023) : (reduce v d).toNat ≤ 2 ^ d.val - 1 := by
  have hpow := two_pow_depth_mul d
  have hlt : v.toNat / 2 ^ (10 - d.val) < 2 ^ d.val := Nat.div_lt_of_lt_mul (by omega)
  rw [reduce_toNat]
  exact Nat.le_sub_one_of_lt hlt

/-- Settles O21: the shift as a division, its bound, and the depths the reducer is defined for. -/
theorem reduceIsFloorDivision : Obligations.ReduceIsFloorDivision := by
  refine ⟨reduce_toNat, fun v d => reduce_le d, fun d => ⟨?_, fun hd => ⟨_, legalDepth?_of_legal d hd, rfl⟩⟩⟩
  rintro ⟨e, he, -⟩
  exact (legalDepth?_some he).2

/-- The largest pixel is reduced to the largest sample (R113). -/
theorem reduce_max (d : LegalDepth) : (reduce 1023 d).toNat = 2 ^ d.val - 1 := by
  have hpow := two_pow_depth_mul d
  have hdiv := Nat.mul_sub_div 0 (2 ^ (10 - d.val)) (2 ^ d.val) (by omega)
  rw [hpow, Nat.zero_div] at hdiv
  exact (reduce_toNat 1023 d).trans hdiv

/-- Settles O22: each law is one of the division by `2 ^ (10 - d)`. -/
theorem reducerLaws : Obligations.ReducerLaws := by
  refine fun d => ⟨?_, reduce_max d, fun v w hle => ?_, fun hd v => ?_, fun hd v hv => ?_⟩
  · apply BitVec.eq_of_toNat_eq
    rw [reduce_toNat]
    exact Nat.zero_div _
  · rw [reduce_toNat, reduce_toNat]
    exact Nat.div_le_div_right hle
  · apply BitVec.eq_of_toNat_eq
    rw [reduce_toNat, hd, Nat.sub_self, pow_zero, Nat.div_one]
  · have hbit : (reduce v d).toNat = v.toNat / 512 := by
      rw [reduce_toNat, hd]
      rfl
    have hone : (1 : Pixel).toNat = 1 := rfl
    rw [← BitVec.toNat_inj, hbit, hone]
    omega

/-! ### assemble and convert -/

/-- The shape test of R111 and R116, by the values of its operands. -/
theorem shape_mismatch_iff (w h : Word32) (n : Nat) :
    (w = 0#32 ∨ h = 0#32 ∨ n ≠ w.toNat * h.toNat) ↔ (w.toNat = 0 ∨ h.toNat = 0 ∨ n ≠ w.toNat * h.toNat) := by
  rw [← BitVec.toNat_inj, ← BitVec.toNat_inj, BitVec.toNat_ofNat, Nat.zero_mod]

/-- Two sides and a count that pass the shape test (R155). -/
theorem shape_matches {w h : Word32} {n : Nat} (hw : w.toNat ≠ 0) (hh : h.toNat ≠ 0) (hn : n = w.toNat * h.toNat) :
    ¬(w = 0#32 ∨ h = 0#32 ∨ n ≠ w.toNat * h.toNat) := by
  rw [shape_mismatch_iff]
  omega

/-- A sample inside the plane has a flat index below the size of the plane (R54). -/
theorem sampleIndex_lt {w h r c : Nat} (hr : r < h) (hc : c < w) : sampleIndex w r c < w * h :=
  calc r * w + c < (r + 1) * w := by rw [Nat.succ_mul]; omega
    _ ≤ h * w := Nat.mul_le_mul_right w hr
    _ = w * h := Nat.mul_comm h w

/-- A sequence of `w * h` samples is cut into rows of `w` samples. -/
theorem length_of_mem_cutRows {w h : Nat} {ps : List Pixel} (hlen : ps.length = w * h) :
    ∀ row ∈ cutRows w h ps, row.length = w := by
  induction h generalizing ps with
  | zero => simp [cutRows]
  | succ h ih =>
    rw [Nat.mul_succ] at hlen
    rw [cutRows, List.forall_mem_cons]
    refine ⟨?_, ih ?_⟩
    · rw [List.length_take]
      omega
    · rw [List.length_drop]
      omega

/-- The plane `assemble` returns when it finds no error (R111). -/
def assembledPlane (ps : List Pixel) (w h : Word32) (d : LegalDepth) : PixelPlane :=
  ⟨h.toNat, w.toNat, (cutRows w.toNat h.toNat ps).map (·.map (reduce · d))⟩

/-- Sample `(r, c)` is pixel `r * width + c`, reduced (R111). -/
theorem assembledPlane_sample? (ps : List Pixel) {w h : Word32} (d : LegalDepth) {r c : Nat} (hr : r < h.toNat)
    (hc : c < w.toNat) :
    (assembledPlane ps w h d).sample? r c = ps[sampleIndex w.toNat r c]?.map (reduce · d) := by
  simp [PixelPlane.sample?, assembledPlane, cutRows_getElem? _ _ _ _ hr, List.getElem?_take_of_lt hc, sampleIndex]

theorem length_of_mem_assembledPlane_rows {ps : List Pixel} {w h : Word32} {d : LegalDepth}
    (hlen : ps.length = w.toNat * h.toNat) : ∀ row ∈ (assembledPlane ps w h d).rows, row.length = w.toNat := by
  intro row hrow
  obtain ⟨cut, hcut, rfl⟩ := List.mem_map.mp hrow
  rw [List.length_map]
  exact length_of_mem_cutRows hlen cut hcut

theorem assemble_shape {ps : List Pixel} {w h : Word32} (d : BitVec 8)
    (hbad : w = 0#32 ∨ h = 0#32 ∨ ps.length ≠ w.toNat * h.toNat) : assemble ps w h d = .error .shapeMismatch :=
  if_pos hbad

theorem assemble_depth {ps : List Pixel} {w h : Word32} {d : BitVec 8}
    (hshape : ¬(w = 0#32 ∨ h = 0#32 ∨ ps.length ≠ w.toNat * h.toNat)) (hd : d.toNat = 0 ∨ 10 < d.toNat) :
    assemble ps w h d = .error .depthOutOfRange := by
  rw [assemble, if_neg hshape, (legalDepth?_eq_none d).mpr hd]

theorem assemble_ok {ps : List Pixel} {w h : Word32} {d : BitVec 8}
    (hshape : ¬(w = 0#32 ∨ h = 0#32 ∨ ps.length ≠ w.toNat * h.toNat)) (hd : 1 ≤ d.toNat ∧ d.toNat ≤ 10) :
    assemble ps w h d = .ok (assembledPlane ps w h ⟨d.toNat, hd⟩) := by
  rw [assemble, if_neg hshape, legalDepth?_of_legal d hd]
  rfl

/-- Settles O23: the two errors in their order, and the plane by its rows and samples. -/
theorem assembleRowMajor : Obligations.AssembleRowMajor := by
  intro ps w h d
  refine ⟨fun hbad => assemble_shape d ((shape_mismatch_iff ..).mpr hbad),
    fun hw hh hlen hd => assemble_depth (shape_matches hw hh hlen) hd, fun hw hh hlen hd1 hd10 => ?_⟩
  refine ⟨_, assemble_ok (shape_matches hw hh hlen) ⟨hd1, hd10⟩, rfl, rfl, ?_, length_of_mem_assembledPlane_rows hlen,
    fun r c hr hc => ?_⟩
  · exact List.length_map _ |>.trans (cutRows_length ..)
  · have hlt : sampleIndex w.toNat r c < ps.length := hlen ▸ sampleIndex_lt hr hc
    have hv := List.getElem?_eq_getElem hlt
    refine ⟨_, _, hv, ?_, reduce_toNat _ ⟨d.toNat, hd1, hd10⟩⟩
    rw [assembledPlane_sample? ps _ hr hc, hv, Option.map_some]

theorem convert_length {buf : List Byte} (w h : Word32) (d : BitVec 8) (hbad : buf.length = 0 ∨ buf.length % 5 ≠ 0) :
    convert buf w h d = .error .invalidBufferLength := by
  rw [convert, unpack_error hbad]

theorem convert_of_unpack {buf : List Byte} {ps : List Pixel} (w h : Word32) (d : BitVec 8) (hu : unpack buf = .ok ps) :
    convert buf w h d = assemble ps w h d := by
  rw [convert, hu]

/-- Settles O24: the Unpacker runs first. -/
theorem convertIsUnpackThenAssemble : Obligations.ConvertIsUnpackThenAssemble :=
  fun _ w h d => ⟨convert_length w h d, fun _ => convert_of_unpack w h d⟩

/-! ### END -/

/-- The length test of R116, by the values of its operands. -/
theorem incomplete_iff (s : State) :
    (s.phase ≠ 0#3 ∨ s.ngrp = 0#64) ↔ (s.phase.toNat ≠ 0 ∨ s.ngrp.toNat = 0) := by
  rw [BitVec.toNat_ne, ← BitVec.toNat_inj, BitVec.toNat_ofNat, BitVec.toNat_ofNat, Nat.zero_mod]

/-- END with everything in order and every pixel received: each sample is its pixel, reduced (R116). -/
theorem execEndReq_assembles {s : State} (hs : s.fsm = .run) (hgood : ¬(s.phase ≠ 0#3 ∨ s.ngrp = 0#64))
    (hshape : ¬(s.width = 0#32 ∨ s.height = 0#32 ∨ s.pixelCount ≠ s.planeSize))
    (hd : 1 ≤ s.depth.toNat ∧ s.depth.toNat ≤ 10)
    (hall : ∀ i, i < s.planeSize → (Memory.read s.pix i).isSome = true) :
    ∃ p, execEndReq s = .next (State.accept { s with fsm := .done, plane := some p } 0#64) ∧
      (∀ i, i < s.planeSize → Memory.read p i = (Memory.read s.pix i).map (reduce · ⟨s.depth.toNat, hd⟩)) ∧
      ∀ i, s.planeSize ≤ i → Memory.read p i = none := by
  have hsome : (planeCells s.pix ⟨s.depth.toNat, hd⟩ 0 s.planeSize).isSome = true := by
    rw [planeCells_isSome, Nat.zero_add]
    exact fun i _ => hall i
  obtain ⟨p, hp⟩ := Option.isSome_iff_exists.mp hsome
  obtain ⟨hin, hout, -⟩ := planeCells_some hp
  rw [Nat.zero_add] at hin hout
  exact ⟨p, execEndReq_done hs hgood hshape hd hp, fun i => hin i (Nat.zero_le i), fun i hi => hout i (.inr hi)⟩

/-- Settles O25: the rejection and the four arms; a state of the invariant outside DONE has no plane. -/
theorem endValidatesAndAssembles : Obligations.EndValidatesAndAssembles := by
  refine ⟨decode_op_endReq, fun s => ?_⟩
  have hgood (hp : s.phase.toNat = 0) (hn : s.ngrp.toNat ≠ 0) : ¬(s.phase ≠ 0#3 ∨ s.ngrp = 0#64) := by
    rw [incomplete_iff]
    omega
  refine ⟨execEndReq_reject, fun hs hbad => ?_, fun hs hp hn hbad => ?_, fun hs hp hn hw hh hc hbad => ?_,
    fun hs hp hn hw hh hc hd1 hd10 hall => ?_, fun hi t ht hf => ?_⟩
  · exact ⟨_, _, _, execEndReq_length hs ((incomplete_iff s).mpr hbad)⟩
  · exact ⟨_, _, _, execEndReq_shape hs (hgood hp hn) ((shape_mismatch_iff ..).mpr hbad)⟩
  · exact ⟨_, _, _, execEndReq_depth hs (hgood hp hn) (shape_matches hw hh hc) hbad⟩
  · rw [hc] at hall
    obtain ⟨p, hexec, hin, hout⟩ := execEndReq_assembles hs (hgood hp hn) (shape_matches hw hh hc) ⟨hd1, hd10⟩ hall
    refine ⟨p, hexec, fun r c hr hc => ?_, hout⟩
    have hlt := sampleIndex_lt hr hc
    obtain ⟨v, hv⟩ := Option.isSome_iff_exists.mp (hall _ hlt)
    refine ⟨v, _, hv, (hin _ hlt).trans ?_, reduce_toNat v ⟨s.depth.toNat, hd1, hd10⟩⟩
    rw [hv, Option.map_some]
  · exact ((exec_effect ht).inv hi).plane_eq_none (by simp [hf])

/-! ### RDPIX -/

/-- Under the invariant a sample of the plane fits in DEPTH bits (R116, R117). -/
theorem State.Inv.sample_le {s : State} (h : s.Inv) {p : Memory} (hp : s.plane = some p) {i : Nat} (hi : i < s.planeSize)
    {v : Pixel} (hv : Memory.read p i = some v) : v.toNat ≤ 2 ^ s.depth.toNat - 1 := by
  obtain ⟨-, -, -, -, -, hd⟩ := h.done_checked (h.plane_iff.mp (by simp [hp]))
  obtain ⟨-, hin, -⟩ := h.plane_samples p hp
  obtain ⟨x, hx, rfl⟩ := Option.map_eq_some_iff.mp ((hin i hi).2.symm.trans hv)
  exact reduce_le ⟨s.depth.toNat, hd⟩ (h.pix_range i x hx)

theorem State.planeRead_of_plane {s : State} {p : Memory} (hp : s.plane = some p) (r c : Nat) :
    s.planeRead r c = Memory.read p (sampleIndex s.width.toNat r c) := by
  rw [State.planeRead, hp, Option.bind_some]

/-- Settles O28: the rejections, and the sample that exists and fits. -/
theorem rdpixReadsSample : Obligations.RdpixReadsSample := by
  refine ⟨decode_op_rdpix, fun s hi row col => ⟨fun hs => execRdpix_reject fun hin => hs hin.1,
    fun _ hout => execRdpix_reject (by omega), fun hs hrow hcol => ?_⟩⟩
  obtain ⟨p, hp⟩ := Option.isSome_iff_exists.mp (hi.plane_iff.mpr hs)
  obtain ⟨v, hread⟩ := hi.exists_planeRead hs hrow hcol
  have hv := (State.planeRead_of_plane hp ..).symm.trans hread
  refine ⟨p, v, hp, hv, hi.sample_le hp (sampleIndex_lt hrow hcol) hv, ?_⟩
  rw [BitVec.ofNat_toNat]
  exact execRdpix_sample hs hrow hcol hread

/-! ### READPLANE -/

/-- Two nested loops over rows and columns visit the flat indices in order (R119). -/
theorem flatMap_range_map_range {α : Type} (f : Nat → Nat → α) (h w : Nat) :
    ((List.range h).flatMap fun r => (List.range w).map (f r)) =
      (List.range (h * w)).map fun k => f (k / w) (k % w) := by
  induction h with
  | zero => simp
  | succ h ih =>
    have hrow : (List.range w).map (f h) =
        (List.range w).map fun c => f ((h * w + c) / w) ((h * w + c) % w) := by
      refine List.map_congr_left fun c hc => ?_
      have hc := List.mem_range.mp hc
      rw [Nat.mul_comm h w, Nat.mul_add_div (by omega), Nat.mul_add_mod, Nat.div_eq_of_lt hc, Nat.mod_eq_of_lt hc,
        Nat.add_zero]
    rw [List.range_succ, List.flatMap_append, ih, List.flatMap_singleton, hrow, Nat.succ_mul, List.range_add,
      List.map_append, List.map_map]
    rfl

/-- Command `k` of READPLANE reads the sample with flat index `k` (R119). -/
theorem readPlane_getElem? {w h : Word32} {k : Nat} (hk : k < w.toNat * h.toNat) :
    ∃ r c : Word32, (readPlane w h)[k]? = some (.rdpix r c) ∧ r.toNat < h.toNat ∧ c.toNat < w.toNat ∧
      sampleIndex w.toNat r.toNat c.toNat = k := by
  have hw : 0 < w.toNat := Nat.pos_of_mul_pos_right (Nat.zero_lt_of_lt hk)
  have hrow : k / w.toNat < h.toNat := Nat.div_lt_of_lt_mul hk
  have hcol : k % w.toNat < w.toNat := Nat.mod_lt k hw
  have hr : (BitVec.ofNat 32 (k / w.toNat)).toNat = k / w.toNat :=
    BitVec.toNat_ofNat .. |>.trans (Nat.mod_eq_of_lt (hrow.trans h.isLt))
  have hc : (BitVec.ofNat 32 (k % w.toNat)).toNat = k % w.toNat :=
    BitVec.toNat_ofNat .. |>.trans (Nat.mod_eq_of_lt (hcol.trans w.isLt))
  refine ⟨_, _, ?_, hr.symm ▸ hrow, hc.symm ▸ hcol, ?_⟩
  · rw [readPlane, flatMap_range_map_range, List.getElem?_map, List.getElem?_range (Nat.mul_comm _ _ ▸ hk),
      Option.map_some]
  · rw [hr, hc]
    exact Nat.div_add_mod' k w.toNat

/-- READPLANE issues reads inside the plane only. -/
theorem mem_readPlane {w h : Word32} {i : Instr} (hi : i ∈ readPlane w h) :
    ∃ r c : Word32, i = .rdpix r c ∧ r.toNat < h.toNat ∧ c.toNat < w.toNat := by
  simp only [readPlane, List.mem_flatMap, List.mem_map, List.mem_range] at hi
  obtain ⟨r, hr, c, hc, rfl⟩ := hi
  refine ⟨_, _, rfl, ?_, ?_⟩
  · exact (BitVec.toNat_ofNat .. ▸ Nat.mod_le ..).trans_lt hr
  · exact (BitVec.toNat_ofNat .. ▸ Nat.mod_le ..).trans_lt hc

/-- In DONE of the invariant, every one of a list of issued reads inside the plane is answered with its sample, and only
the ports change (R117). -/
theorem State.Inv.run_reads {s : State} (hi : s.Inv) (hs : s.fsm = .done) {cs : List Instr} {rest : List Input}
    (hcs : ∀ i ∈ cs, ∃ r c : Word32, i = .rdpix r c ∧ r.toNat < s.height.toNat ∧ c.toNat < s.width.toNat)
    (hin : s.input = cs.map issue ++ rest) {k : Nat} {r c : Word32} (hk : cs[k]? = some (.rdpix r c)) :
    ∃ v l, s.planeRead r.toNat c.toNat = some v ∧
      Host.Core.run core (k + 1) s = .next { s with input := l, rsp := some ⟨true, v.setWidth 64⟩ } := by
  induction cs generalizing s k with
  | nil => simp at hk
  | cons i cs ih =>
    obtain ⟨r₀, c₀, rfl, hr, hc⟩ := hcs i List.mem_cons_self
    obtain ⟨v₀, hv₀⟩ := hi.exists_planeRead hs hr hc
    have hrun := run_issue_succ rfl hin
      (execRdpix_sample (s := { s with input := cs.map issue ++ rest }) hs hr hc hv₀)
    cases k with
    | zero =>
      rw [List.getElem?_cons_zero] at hk
      cases hk
      exact ⟨v₀, _, hv₀, hrun 0⟩
    | succ k =>
      rw [List.getElem?_cons_succ] at hk
      have hi' := hi.of_ports (cs.map issue ++ rest) (some ⟨true, v₀.setWidth 64⟩) s.lanes s.h s.freeCount
      rw [hrun]
      exact ih hi' hs (fun j hj => hcs j (List.mem_cons_of_mem _ hj)) rfl hk

/-- Settles O51: command `k` reads flat index `k`, and reads change only the ports. -/
theorem readPlaneYieldsRowMajor : Obligations.ReadPlaneYieldsRowMajor := by
  intro s p rest hi hs hp hin k hk
  obtain ⟨r, c, hget, -, -, hindex⟩ := readPlane_getElem? hk
  obtain ⟨v, l, hv, hrun⟩ := hi.run_reads hs (fun _ => mem_readPlane) hin hget
  rw [State.planeRead_of_plane hp, hindex] at hv
  refine ⟨_, v, hrun, hv, ?_, rfl⟩
  rw [BitVec.ofNat_toNat]

/-! ### CONVERT -/

/-- The commands `cs`, issued in `s` before the inputs `rest`, are accepted one after another, and leave `t`. -/
inductive Accepted (rest : List Input) : List Instr → State → State → Prop
  | done {s : State} (hin : s.input = rest) : Accepted rest [] s s
  | step {i : Instr} {cs : List Instr} {s t u : State} {x : Word64} (hwf : i.WellFormed)
      (hin : s.input = (i :: cs).map issue ++ rest)
      (hexec : exec i { s with input := cs.map issue ++ rest } = .next u) (hrsp : u.rsp = some ⟨true, x⟩)
      (htail : Accepted rest cs u t) : Accepted rest (i :: cs) s t

namespace Accepted

variable {rest : List Input} {cs : List Instr} {s t u : State}

/-- The run of the commands ends in the state they leave. -/
theorem run (h : Accepted rest cs s t) : Host.Core.run core cs.length s = .next t ∧ t.input = rest := by
  induction h with
  | done hin => exact ⟨rfl, hin⟩
  | @step _ cs _ _ _ _ hwf hin hexec _ _ ih => exact ⟨(run_issue_succ hwf hin hexec cs.length).trans ih.1, ih.2⟩

/-- Every command of the run is answered with `acc = 1`. -/
theorem response (h : Accepted rest cs s t) {k : Nat} (hk : k < cs.length) :
    ∃ (u : State) (x : Word64), Host.Core.run core (k + 1) s = .next u ∧ u.rsp = some ⟨true, x⟩ := by
  induction h generalizing k with
  | done => exact absurd hk (Nat.not_lt_zero k)
  | @step _ cs _ _ _ _ hwf hin hexec hrsp _ ih =>
    rw [run_issue_succ hwf hin hexec]
    cases k with
    | zero => exact ⟨_, _, rfl, hrsp⟩
    | succ k => exact ih (Nat.lt_of_succ_lt_succ hk)

/-- Commands accepted after commands accepted. -/
theorem append {cs' : List Instr} (h : Accepted (cs'.map issue ++ rest) cs s u) (h' : Accepted rest cs' u t) :
    Accepted rest (cs ++ cs') s t := by
  induction h with
  | done => exact h'
  | step hwf hin hexec hrsp _ ih =>
    exact .step hwf (by simpa using hin) (by simpa using hexec) hrsp (ih h')

/-- In IDLE, a WRCSR of a writable register may stand before commands that are accepted. -/
theorem wrcsr {r : Csr} {v : Word32} (hs : s.fsm = .idle) (hwf : r.WellFormed)
    (hin : s.input = (.wrcsr r v :: cs).map issue ++ rest)
    (hw : State.csrWrite { s with input := cs.map issue ++ rest } r v = some u)
    (htail : Accepted rest cs (u.accept 0#64) t) : Accepted rest (.wrcsr r v :: cs) s t :=
  .step hwf hin (execWrcsr_write hs hw) rfl htail

end Accepted

/-- Two states have the same capacity, geometry and depth. -/
structure SameConfiguration (s t : State) : Prop where
  cfg : t.cfg = s.cfg
  width : t.width = s.width
  height : t.height = s.height
  depth : t.depth = s.depth

theorem SameConfiguration.trans {s t u : State} (h : SameConfiguration s t) (h' : SameConfiguration t u) :
    SameConfiguration s u :=
  ⟨h'.cfg.trans h.cfg, h'.width.trans h.width, h'.height.trans h.height, h'.depth.trans h.depth⟩

/-- In IDLE, CONFIG and START of a request that fits are accepted, and nothing has been received (R83, R134). -/
theorem config_start_accepted {s : State} {w h : Word32} {d : BitVec 8} {rest : List Input} (hs : s.fsm = .idle)
    (hfit : s.cfg.fits (w.toNat * h.toNat) = true) (hin : s.input = (config w h d ++ [Instr.start]).map issue ++ rest) :
    ∃ t, Accepted rest (config w h d ++ [Instr.start]) s t ∧ t.Received [] ∧
      SameConfiguration { s with width := w, height := h, depth := d } t := by
  refine ⟨_, .wrcsr hs rfl hin rfl (.wrcsr hs rfl rfl rfl (.wrcsr hs rfl rfl rfl
    (.step rfl rfl (execStart_accept hs hfit) rfl (.done rfl)))), ?_, ?_⟩
  · exact ⟨[], [], rfl, rfl, rfl, rfl, by simp, by simp, by simp⟩
  · exact ⟨rfl, rfl, rfl, lowByte_setWidth d⟩

/-- In RUN, PUSH is accepted and keeps the configuration (R96, R130). -/
theorem execPush_in_run {v : Byte} {s t : State} (hs : s.fsm = .run) (h : execPush v s = .next t) :
    t.rsp = some ⟨true, 0#64⟩ ∧ SameConfiguration s t := by
  rcases execPush_next h with ⟨hne, -⟩ | ⟨-, -, rfl⟩ | ⟨-, -, rfl⟩
  · exact absurd hs hne
  · exact ⟨rfl, rfl, rfl, rfl, rfl⟩
  · exact ⟨rfl, rfl, rfl, rfl, rfl⟩

/-- FEED is accepted and receives the buffer, as long as NGRP does not saturate (R83, R97). -/
theorem State.Received.feed {s : State} {B buf : List Byte} {rest : List Input} (h : s.Received B)
    (hB : (B ++ buf).length < 5 * (2 ^ 64 - 1)) (hin : s.input = (feed buf).map issue ++ rest) :
    ∃ t, Accepted rest (Machine.feed buf) s t ∧ t.Received (B ++ buf) ∧ SameConfiguration s t := by
  induction buf generalizing s B with
  | nil => exact ⟨s, .done hin, by simpa using h, rfl, rfl, rfl, rfl⟩
  | cons v buf ih =>
    have hbytes : B ++ v :: buf = B ++ [v] ++ buf := by simp
    rw [hbytes] at hB ⊢
    have h' := h.of_ports ((Machine.feed buf).map issue ++ rest) s.rsp s.lanes
    have hB1 : (B ++ [v]).length < 5 * (2 ^ 64 - 1) := by
      rw [List.length_append] at hB
      omega
    obtain ⟨u, hexec, hu, -, hrec⟩ := h'.push v hB1
    obtain ⟨hrsp, hcfg, hw, hh, hd⟩ := execPush_in_run h'.contents.1 hexec
    obtain ⟨t, hacc, hfin, hsame'⟩ := ih hrec hB hu
    exact ⟨t, .step rfl hin hexec hrsp hacc, hfin, .trans ⟨hcfg, hw, hh, hd⟩ hsame'⟩

/-- When the bytes received are complete groups that fit, the pixel store holds their pixels (R97). -/
theorem State.Received.read_pix {s : State} {B : List Byte} (h : s.Received B) (h0 : B.length ≠ 0)
    (h5 : B.length % 5 = 0) {i : Nat} (hi : i < s.pixelCount) (hh : s.cfg.holds i = true) :
    Memory.read s.pix i = (groupPixels B)[i]? := by
  obtain ⟨-, -, hngrp, hpix, -⟩ := h.contents
  obtain ⟨ps, hps, hread⟩ := hpix (by omega)
  rw [List.take_of_length_le (by omega), unpack_ok h0 h5] at hps
  cases hps
  rw [State.pixelCount, hngrp] at hi
  exact hread i hi hh

/-- What END leaves agrees with the outcome of the reference function: the same error, or a plane with the same
samples. -/
inductive EndAgrees (s : State) : Except RequestError PixelPlane → Host.Outcome State Fault Refusal → Prop
  | error (e : RequestError) : EndAgrees s (.error e) (.next (s.raise e))
  | plane (P : PixelPlane) (p : Memory)
      (hsample : ∀ r c, r < s.height.toNat → c < s.width.toNat →
        ∃ v, P.sample? r c = some v ∧ Memory.read p (sampleIndex s.width.toNat r c) = some v) :
      EndAgrees s (.ok P) (.next (State.accept { s with fsm := .done, plane := some p } 0#64))

/-- END with complete groups agrees with assemble of their pixels (R118). -/
theorem execEndReq_agrees_assemble {s : State} {ps : List Pixel} (hs : s.fsm = .run)
    (hgood : ¬(s.phase ≠ 0#3 ∨ s.ngrp = 0#64)) (hcount : ps.length = s.pixelCount)
    (hread : ∀ i, i < s.pixelCount → i < s.planeSize → Memory.read s.pix i = ps[i]?) :
    EndAgrees s (assemble ps s.width s.height s.depth) (execEndReq s) := by
  by_cases hshape : s.width = 0#32 ∨ s.height = 0#32 ∨ s.pixelCount ≠ s.planeSize
  case pos =>
    rw [execEndReq_shape hs hgood hshape, assemble_shape _ (hcount ▸ hshape)]
    exact .error _
  by_cases hd : 1 ≤ s.depth.toNat ∧ s.depth.toNat ≤ 10
  case neg =>
    have hd : s.depth.toNat = 0 ∨ 10 < s.depth.toNat := by omega
    rw [execEndReq_depth hs hgood hshape hd, assemble_depth (hcount ▸ hshape) hd]
    exact .error _
  have hsize : s.pixelCount = s.planeSize := by
    by_contra hne
    exact hshape (.inr (.inr hne))
  have hpixel (i : Nat) (hi : i < s.planeSize) : ∃ v, Memory.read s.pix i = some v ∧ ps[i]? = some v := by
    have hi' : i < ps.length := by rw [hcount, hsize]; exact hi
    have hv := List.getElem?_eq_getElem hi'
    exact ⟨_, (hread i (hsize ▸ hi) hi).trans hv, hv⟩
  obtain ⟨p, hexec, hin, -⟩ := execEndReq_assembles hs hgood hshape hd fun i hi =>
    Option.isSome_iff_exists.mpr ((hpixel i hi).imp fun _ => And.left)
  rw [hexec, assemble_ok (hcount ▸ hshape) hd]
  refine .plane _ p fun r c hr hc => ?_
  have hlt := sampleIndex_lt hr hc
  obtain ⟨v, hpix, hps⟩ := hpixel _ hlt
  refine ⟨reduce v ⟨s.depth.toNat, hd⟩, ?_, ?_⟩
  · rw [assembledPlane_sample? _ _ hr hc, hps, Option.map_some]
  · rw [hin _ hlt, hpix, Option.map_some]

/-- END after the bytes of a buffer agrees with convert: a bad length is one in both, and complete groups are assembled
(R118). -/
theorem State.Received.endAgrees {s : State} {B : List Byte} (h : s.Received B)
    (hfit : s.cfg.fits s.planeSize = true) :
    EndAgrees s (convert B s.width s.height s.depth) (execEndReq s) := by
  obtain ⟨hs, hphase, hngrp, -, -⟩ := h.contents
  have hlength : (s.phase ≠ 0#3 ∨ s.ngrp = 0#64) ↔ (B.length = 0 ∨ B.length % 5 ≠ 0) := by
    rw [incomplete_iff]
    omega
  by_cases hlen : s.phase ≠ 0#3 ∨ s.ngrp = 0#64
  case pos =>
    rw [execEndReq_length hs hlen, convert_length _ _ _ (hlength.mp hlen)]
    exact .error _
  have hgroups : B.length ≠ 0 ∧ B.length % 5 = 0 := by
    rw [hlength] at hlen
    omega
  rw [convert_of_unpack _ _ _ (unpack_ok hgroups.1 hgroups.2)]
  refine execEndReq_agrees_assemble hs hlen ?_ fun i hi hplane =>
    h.read_pix hgroups.1 hgroups.2 hi (holds_of_fits hfit hplane)
  rw [groupPixels_length, State.pixelCount, hngrp]

/-- What the host sees after an END that agrees with convert: the response, and the answers of RDPIX (R118). -/
theorem EndAgrees.visible {s : State} {result : Except RequestError PixelPlane} {o : Host.Outcome State Fault Refusal}
    (h : EndAgrees s result o) :
    ∃ (t : State) (x : Word64), o = .next t ∧ t.rsp = some ⟨true, x⟩ ∧ t.input = s.input ∧
      (∀ P, result = .ok P → t.fsm = .done ∧ t.rsp = some ⟨true, 0#64⟩ ∧
        ∀ r c : Word32, r.toNat < s.height.toNat → c.toNat < s.width.toNat → ∃ v : Pixel,
          P.sample? r.toNat c.toNat = some v ∧
          exec (.rdpix r c) t = .next { t with rsp := some ⟨true, BitVec.ofNat 64 v.toNat⟩ }) ∧
      ∀ e, result = .error e →
        t.fsm = .error ∧ t.err = some e ∧ t.rsp = some ⟨true, BitVec.ofNat 64 e.code.toNat⟩ ∧
        ∀ r c : Word32, exec (.rdpix r c) t = .next { t with rsp := some ⟨false, 0#64⟩ } := by
  cases h with
  | error e =>
    refine ⟨_, _, rfl, rfl, rfl, nofun, ?_⟩
    rintro _ ⟨rfl⟩
    refine ⟨rfl, rfl, ?_, fun r c => execRdpix_reject (by simp)⟩
    rw [BitVec.ofNat_toNat, State.raise_rsp]
  | plane P p hsample =>
    refine ⟨_, _, rfl, rfl, rfl, ?_, nofun⟩
    rintro _ ⟨rfl⟩
    refine ⟨rfl, rfl, fun r c hr hc => ?_⟩
    obtain ⟨v, hP, hv⟩ := hsample _ _ hr hc
    refine ⟨v, hP, ?_⟩
    rw [BitVec.ofNat_toNat]
    exact execRdpix_sample rfl hr hc hv

/-- Before END, every command of CONVERT is accepted, and the buffer is received. -/
theorem convert_received {s : State} {buf : List Byte} {w h : Word32} {d : BitVec 8} {rest : List Input}
    (hs : s.fsm = .idle) (hfit : s.cfg.fits (w.toNat * h.toNat) = true) (hlen : buf.length < 5 * (2 ^ 64 - 1))
    (hin : s.input = (config w h d ++ [Instr.start] ++ feed buf).map issue ++ rest) :
    ∃ t, Accepted rest (config w h d ++ [Instr.start] ++ feed buf) s t ∧ t.Received buf ∧
      SameConfiguration { s with width := w, height := h, depth := d } t := by
  rw [List.map_append, List.append_assoc] at hin
  obtain ⟨u, hacc, hrec, hsame⟩ := config_start_accepted hs hfit hin
  obtain ⟨t, hacc', hfin, hsame'⟩ := hrec.feed hlen hacc.run.2
  exact ⟨t, hacc.append hacc', hfin, hsame.trans hsame'⟩

theorem convertCommands_eq (buf : List Byte) (w h : Word32) (d : BitVec 8) :
    convertCommands buf w h d = config w h d ++ [Instr.start] ++ feed buf ++ [.endReq] := by
  simp [convertCommands]

/-- Settles O50: CONFIG, START and FEED are accepted and the buffer is received; END then agrees with convert. -/
theorem commandsCarryOutConvert : Obligations.CommandsCarryOutConvert := by
  intro s buf w h d rest hs hfit hlen hin
  rw [convertCommands_eq] at hin ⊢
  rw [List.map_append, List.append_assoc] at hin
  obtain ⟨u, hacc, hrec, hcfg, hw, hh, hd⟩ := convert_received hs hfit hlen hin
  have hw : u.width = w := hw
  have hh : u.height = h := hh
  have hd : u.depth = d := hd
  subst hw hh hd
  have hend := (hrec.of_ports rest u.rsp u.lanes).endAgrees (hcfg ▸ hfit)
  obtain ⟨t, x, hexec, hrsp, htin, hvisible⟩ := hend.visible
  have hall := hacc.append (.step rfl hacc.run.2 hexec hrsp (.done htin))
  exact ⟨fun k => hall.response, t, hall.run.1, hall.run.2, hvisible⟩

end Sys2Proof.Machine
end

section
/-! PROOFS. Control (42_control.md): the acceptance table, what a rejection leaves, and runs that never stop. -/
namespace Sys2Proof.Machine

/-! ### No step stops -/

theorem SameVisible.refl (s : State) : SameVisible s s :=
  ⟨rfl, rfl, rfl, rfl, rfl, rfl, rfl, rfl, rfl, rfl, rfl, rfl, fun _ _ _ _ => rfl, fun _ _ _ _ => rfl⟩

/-- Settles O45: a state of the invariant looks like itself, and states that look the same both answer. -/
theorem stepNeverStops : Obligations.StepNeverStops := by
  intro s hi
  obtain ⟨t, -, ht, -⟩ := (SameVisible.refl s).step_alike hi
  exact ⟨t, ht⟩

/-- A run of any length from a state of the invariant goes on, and ends in one (R136). -/
theorem State.Inv.run {s : State} (hi : s.Inv) (n : Nat) : ∃ t, Host.Core.run core n s = .next t ∧ t.Inv := by
  induction n generalizing s with
  | zero => exact ⟨s, rfl, hi⟩
  | succ n ih =>
    obtain ⟨u, hu⟩ := stepNeverStops s hi
    have hstep : core.step s = .next u := hu
    simp only [Host.Core.run, hstep]
    exact ih (stepKeepsInvariant s u hi hu)

/-- Settles O46: reset meets the invariant, from which no run stops. -/
theorem everyRunFromResetGoesOn : Obligations.EveryRunFromResetGoesOn :=
  fun c inputs => (resetMeetsInvariant c inputs).run

/-! ### Accepted or rejected -/

/-- A command that answers is accepted, or it is rejected and changes only the response (R131). -/
theorem accepted_or_rejected {i : Instr} {s t : State} (h : exec i s = .next t)
    (hi : ∀ b0 b1 b2 b3 b4, i ≠ .extract b0 b1 b2 b3 b4) : (∃ d, t.rsp = some ⟨true, d⟩) ∨ t = s.reject := by
  cases i with
  | nop =>
    obtain rfl := execNop_next h
    exact .inl ⟨_, rfl⟩
  | wrcsr r v =>
    rcases execWrcsr_next h with rfl | ⟨-, u, -, rfl⟩
    · exact .inr rfl
    · exact .inl ⟨_, rfl⟩
  | rdcsr r =>
    rcases execRdcsr_next h with ⟨-, rfl⟩ | ⟨v, -, rfl⟩
    · exact .inr rfl
    · exact .inl ⟨_, rfl⟩
  | start =>
    rcases execStart_next h with ⟨-, rfl⟩ | ⟨-, -, rfl⟩
    · exact .inr rfl
    · exact .inl ⟨_, rfl⟩
  | push v =>
    rcases execPush_next h with ⟨-, rfl⟩ | ⟨-, -, rfl⟩ | ⟨-, -, rfl⟩
    · exact .inr rfl
    · exact .inl ⟨_, rfl⟩
    · exact .inl ⟨_, rfl⟩
  | endReq =>
    rcases execEndReq_next h with ⟨-, rfl⟩ | ⟨-, e, -, rfl⟩ | ⟨-, -, -, -, -, -, d, p, -, -, rfl⟩
    · exact .inr rfl
    · exact .inl ⟨_, rfl⟩
    · exact .inl ⟨_, rfl⟩
  | rdpix row col =>
    rcases execRdpix_next h with rfl | ⟨-, -, -, v, -, rfl⟩
    · exact .inr rfl
    · exact .inl ⟨_, rfl⟩
  | clear =>
    rcases execClear_next h with ⟨-, rfl⟩ | ⟨-, rfl⟩
    · exact .inr rfl
    · exact .inl ⟨_, rfl⟩
  | extract b0 b1 b2 b3 b4 => exact absurd rfl (hi b0 b1 b2 b3 b4)

/-- Settles O30: a refused word is rejected, and a decoded command that is not accepted is. -/
theorem rejectedChangesNothing : Obligations.RejectedChangesNothing := by
  rintro s t w rest hin h ⟨d, hacc⟩
  cases hd : decode (.command w) with
  | error e =>
    cases (step_word_refused hin hd).symm.trans h
    rfl
  | ok i =>
    have hexec := (step_word hin hd).symm.trans h
    rcases accepted_or_rejected hexec fun _ _ _ _ _ hi => decode_command_ne_extract (hi ▸ hd) with ⟨d', hd'⟩ | rfl
    · cases hacc.symm.trans hd'
    · rfl

/-! ### The acceptance table -/

/-- `RowAnswer s op a b o`: the outcome `o` of a command in `s` is what the acceptance table says of it (R130). -/
inductive RowAnswer (s : State) (op : Nat) (a b : Word32) : Host.Outcome State Fault Refusal → Prop
  | accepted {t : State} {d : Word64} (hrow : tableAccepts op a b s = true) (hrsp : t.rsp = some ⟨true, d⟩)
      (hnext : tableNext op s.fsm t.fsm) : RowAnswer s op a b (.next t)
  | rejected (hrow : tableAccepts op a b s = false) : RowAnswer s op a b (.next s.reject)

/-- No operation code from 8 on has a row (R78, R130). -/
theorem tableAccepts_reserved {op : Nat} (h : 8 ≤ op) (a b : Word32) (s : State) : tableAccepts op a b s = false := by
  unfold tableAccepts
  split
  case h_9 => rfl
  all_goals omega

/-- Registers 0 to 2 are writable, the others not (R27, R133). -/
theorem isSome_csrWrite_ofNumber (s : State) (n v : Word32) :
    (s.csrWrite (Csr.ofNumber n) v).isSome = true ↔ n.toNat ≤ 2 := by
  unfold Csr.ofNumber
  split <;> simp_all [State.csrWrite]
  omega

/-- Registers 0 to 4 are readable, the others reserved (R27, R135). -/
theorem isSome_csrRead_ofNumber (s : State) (n : Word32) :
    (s.csrRead (Csr.ofNumber n)).isSome = true ↔ n.toNat ≤ 4 := by
  unfold Csr.ofNumber
  split <;> simp_all [State.csrRead]
  omega

/-- WRCSR keeps FSM. -/
theorem State.csrWrite_some_fsm {s u : State} {r : Csr} {v : Word32} (h : s.csrWrite r v = some u) : u.fsm = s.fsm := by
  rcases State.csrWrite_some h with ⟨-, rfl⟩ | ⟨-, rfl⟩ | ⟨-, rfl⟩ <;> rfl

/-- In RUN of the invariant END is accepted, and ends in DONE or ERROR (R116, R138). -/
theorem State.Inv.execEndReq_leaves_run {s : State} (hi : s.Inv) (hs : s.fsm = .run) :
    ∃ t d, execEndReq s = .next t ∧ t.rsp = some ⟨true, d⟩ ∧ (t.fsm = .done ∨ t.fsm = .error) := by
  obtain ⟨t, -, ht, -⟩ := (SameVisible.refl s).execEndReq_alike hi
  rcases execEndReq_next ht with ⟨hne, -⟩ | ⟨-, e, -, rfl⟩ | ⟨-, -, -, -, -, -, d, p, -, -, rfl⟩
  · exact absurd hs hne
  · exact ⟨_, _, ht, rfl, .inr rfl⟩
  · exact ⟨_, _, ht, rfl, .inl rfl⟩

namespace RowAnswer

variable {s : State} {a b : Word32}

theorem nop : RowAnswer s 0 a b (execNop s) := .accepted rfl rfl rfl

theorem wrcsr : RowAnswer s 1 a b (execWrcsr (Csr.ofNumber a) b s) := by
  have hwritable := isSome_csrWrite_ofNumber s a b
  by_cases hs : s.fsm = .idle
  case neg =>
    rw [execWrcsr_reject (.inl hs)]
    exact .rejected (by simp [tableAccepts, hs])
  cases hw : s.csrWrite (Csr.ofNumber a) b with
  | none =>
    rw [execWrcsr_reject (.inr hw)]
    exact .rejected (by simpa [tableAccepts, hs, hw] using hwritable)
  | some u =>
    rw [execWrcsr_write hs hw]
    have hfsm : u.fsm = s.fsm := State.csrWrite_some_fsm hw
    exact .accepted (by simpa [tableAccepts, hs, hw] using hwritable) rfl hfsm

theorem rdcsr : RowAnswer s 2 a b (execRdcsr (Csr.ofNumber a) s) := by
  have hreadable := isSome_csrRead_ofNumber s a
  cases hr : s.csrRead (Csr.ofNumber a) with
  | none =>
    rw [execRdcsr_reject hr]
    exact .rejected (by simpa [tableAccepts, hr] using hreadable)
  | some x =>
    rw [execRdcsr_read hr]
    exact .accepted (by simpa [tableAccepts, hr] using hreadable) rfl rfl

theorem start : RowAnswer s 3 a b (execStart s) := by
  by_cases hgo : s.fsm = .idle ∧ s.cfg.fits s.planeSize = true
  · rw [execStart_accept hgo.1 hgo.2]
    exact .accepted (by simpa [tableAccepts, State.planeSize] using hgo) rfl rfl
  · rw [execStart_reject hgo]
    exact .rejected (by simpa [tableAccepts, State.planeSize] using hgo)

theorem push (v : Byte) : RowAnswer s 4 a b (execPush v s) := by
  by_cases hs : s.fsm = .run
  case neg =>
    rw [execPush_reject hs]
    exact .rejected (by simp [tableAccepts, hs])
  have hrow : tableAccepts 4 a b s = true := by simp [tableAccepts, hs]
  rcases Nat.lt_or_ge s.phase.toNat 4 with h4 | h4
  · rw [execPush_hold hs h4]
    exact .accepted hrow rfl rfl
  · rw [execPush_group hs h4]
    exact .accepted hrow rfl rfl

theorem endReq (hi : s.Inv) : RowAnswer s 5 a b (execEndReq s) := by
  by_cases hs : s.fsm = .run
  · obtain ⟨t, d, hexec, hrsp, hnext⟩ := hi.execEndReq_leaves_run hs
    rw [hexec]
    exact .accepted (by simp [tableAccepts, hs]) hrsp hnext
  · rw [execEndReq_reject hs]
    exact .rejected (by simp [tableAccepts, hs])

theorem rdpix (hi : s.Inv) : RowAnswer s 6 a b (execRdpix a b s) := by
  by_cases hin : s.fsm = .done ∧ a.toNat < s.height.toNat ∧ b.toNat < s.width.toNat
  · obtain ⟨hs, hrow, hcol⟩ := hin
    obtain ⟨v, hv⟩ := hi.exists_planeRead hs hrow hcol
    rw [execRdpix_sample hs hrow hcol hv]
    exact .accepted (by simp [tableAccepts, hs, hrow, hcol]) rfl rfl
  · rw [execRdpix_reject hin]
    exact .rejected (by simpa [tableAccepts] using hin)

theorem clear : RowAnswer s 7 a b (execClear s) := by
  by_cases hs : s.fsm = .run
  · rw [execClear_reject hs]
    exact .rejected (by simp [tableAccepts, hs])
  · rw [execClear_accept hs]
    exact .accepted (by simp [tableAccepts, hs]) rfl rfl

theorem of_decode {r : Raw} {i : Instr} {op : Nat} (hd : decode r = .ok i) (h : RowAnswer s op a b (exec i s)) :
    RowAnswer s op a b (s.perform r) := by
  rw [State.perform, hd]
  exact h

/-- The operation code selects the command, which answers as its row says (R76, R130). -/
theorem perform (hi : s.Inv) (op : BitVec 4) (a b : Word32) :
    RowAnswer s op.toNat a b (s.perform (.command (commandWord op a b))) := by
  rcases Nat.lt_or_ge op.toNat 8 with hlt | hge
  · have hop : op = BitVec.ofNat 4 op.toNat := by rw [BitVec.ofNat_toNat, BitVec.setWidth_eq]
    generalize op.toNat = n at hop hlt ⊢
    subst hop
    interval_cases n
    · exact of_decode (decode_op_nop a b) nop
    · exact of_decode (decode_op_wrcsr a b) wrcsr
    · exact of_decode (decode_op_rdcsr a b) rdcsr
    · exact of_decode (decode_op_start a b) start
    · exact of_decode (decode_op_push a b) (push _)
    · exact of_decode (decode_op_endReq a b) (endReq hi)
    · exact of_decode (decode_op_rdpix a b) (rdpix hi)
    · exact of_decode (decode_op_clear a b) clear
  · rw [State.perform, decode_op_reserved hge]
    exact .rejected (tableAccepts_reserved hge a b s)

/-- The table's two verdicts, as implications. -/
theorem exists_next {op : Nat} {o : Host.Outcome State Fault Refusal} (h : RowAnswer s op a b o) :
    ∃ t, o = .next t ∧
      (tableAccepts op a b s = true → (∃ d, t.rsp = some ⟨true, d⟩) ∧ tableNext op s.fsm t.fsm) ∧
      (tableAccepts op a b s = false → t = s.reject) := by
  cases h with
  | accepted hrow hrsp hnext => exact ⟨_, rfl, fun _ => ⟨⟨_, hrsp⟩, hnext⟩, by simp [hrow]⟩
  | rejected hrow => exact ⟨_, rfl, by simp [hrow], fun _ => rfl⟩

end RowAnswer

/-- Settles O31: the step performs the command word, which is answered as its row says. -/
theorem acceptanceTable : Obligations.AcceptanceTable := by
  intro s op a b rest hi hin
  have hstep : step s = State.perform { s with input := rest } (.command (commandWord op a b)) := by
    rw [step, State.advance, hin]
    rfl
  rw [hstep]
  exact (RowAnswer.perform (hi.of_ports rest s.rsp s.lanes s.h s.freeCount) op a b).exists_next

/-! ### Leaving RUN, and what a finished request keeps -/

/-- Settles O33: the transitions of FSM out of RUN are those of END and reset. -/
theorem noCancelInRun : Obligations.NoCancelInRun := by
  intro s hi hs
  refine ⟨execStart_reject (by simp [hs]), execClear_reject hs, hi.execEndReq_leaves_run hs, fun t h hne => ?_⟩
  obtain ⟨-, -, -, -, -, htransitions⟩ := onlyFsmTransitions
  rcases htransitions s t h (hs ▸ hne.symm) with ⟨hreset, -⟩ | ⟨-, hf, -⟩ | ⟨hend, -⟩ | ⟨-, hf, -⟩
  · exact .inr hreset
  · simp [hs] at hf
  · exact .inl hend
  · simp [hs] at hf

/-- In DONE and in ERROR every operation but CLEAR changes the response and the lanes only (R140). -/
theorem Effect.ports_of_finished {s t : State} {i : Instr} (h : Effect s i t) (hs : s.fsm = .done ∨ s.fsm = .error)
    (hi : i ≠ .clear) : t = { s with rsp := t.rsp, lanes := t.lanes } := by
  cases h with
  | same => rfl
  | clear => exact absurd rfl hi
  | width _ _ _ hf | height _ _ _ hf | depth _ _ _ hf | start hf | hold _ hf | group _ hf | raise _ hf | done _ _ hf =>
    simp [hf] at hs

/-- Settles O36: waiting, a refused word and every operation but CLEAR keep what is not the input or an output port. -/
theorem resultFixedUntilClear : Obligations.ResultFixedUntilClear := by
  intro s t hs h hclear hreset
  rcases step_next h with ⟨hin, rfl⟩ | ⟨rest, hin, -⟩ | ⟨_, _, rest, hin, -, rfl⟩ | ⟨r, i, rest, hin, hd, he⟩
  · rw [hin, List.tail_nil, ← hin]
  · exact absurd ⟨rest, hin⟩ hreset
  · rw [hin, List.tail_cons]
    rfl
  · rw [hin, List.tail_cons]
    refine he.ports_of_finished hs ?_
    rintro rfl
    rcases command_or_extract_of_decode hd with ⟨w, rfl⟩ | ⟨_, _, _, _, _, hne⟩
    · exact hclear ⟨w, rest, hin, hd⟩
    · cases hne

/-! ### The control commands -/

/-- Settles O11: the row of operation code 0, and the acceptance that is all NOP does. -/
theorem nopChangesNothing : Obligations.NopChangesNothing :=
  ⟨decode_op_nop, fun _ => rfl⟩

/-- The numbers from 5 on are reserved (R27, R80). -/
theorem ofNumber_reserved {n : Word32} (h : 5 ≤ n.toNat) : Csr.ofNumber n = .reserved n := by
  unfold Csr.ofNumber
  split
  case h_6 => rfl
  all_goals omega

/-- The value DEPTH takes, as a word (R29). -/
theorem depthOperand_eq_ofNat (v : Word32) : depthOperand v = BitVec.ofNat 8 v.toNat := by
  apply BitVec.eq_of_toNat_eq
  rw [depthOperand_toNat, BitVec.toNat_ofNat]

/-- Settles O12: the registers by number, the writes and the rejections, and what else can change a register. -/
theorem wrcsrWritesConfigurationInIdle : Obligations.WrcsrWritesConfigurationInIdle := by
  refine ⟨decode_op_wrcsr, rfl, rfl, rfl, rfl, rfl, fun _ => ofNumber_reserved, fun s v => ⟨fun hs => ?_, fun hs r =>
    execWrcsr_reject (.inl hs)⟩, fun s t h hne => ?_⟩
  · have hwrite (r : Csr) {u : State} (hw : s.csrWrite r v = some u) : exec (.wrcsr r v) s = .next (u.accept 0#64) :=
      execWrcsr_write hs hw
    have hreject (r : Csr) (hw : s.csrWrite r v = none) : exec (.wrcsr r v) s = .next s.reject :=
      execWrcsr_reject (.inr hw)
    rw [← depthOperand_eq_ofNat]
    exact ⟨hwrite .width rfl, hwrite .height rfl, hwrite .depth rfl, hreject .status rfl, hreject .ngrp rfl,
      fun n => hreject (.reserved n) rfl⟩
  · exact (configurationFixedDuringRequest s t h hne).imp_right And.right

/-- Settles O13: each register that exists is answered, STATUS by the codes of its fields; a reserved number is
rejected. -/
theorem rdcsrReadsRegisters : Obligations.RdcsrReadsRegisters := by
  refine ⟨decode_op_rdcsr, fun s => ?_⟩
  have hread (r : Csr) {x : Word64} (hr : s.csrRead r = some x) : exec (.rdcsr r) s = .next (s.accept x) :=
    execRdcsr_read hr
  refine ⟨hread .width (congrArg some (BitVec.ofNat_toNat 64 s.width).symm),
    hread .height (congrArg some (BitVec.ofNat_toNat 64 s.height).symm),
    hread .depth (congrArg some (BitVec.ofNat_toNat 64 s.depth).symm), hread .status (congrArg some ?_), hread .ngrp rfl,
    fun n => execRdcsr_reject (r := .reserved n) rfl⟩
  rw [← BitVec.ofNat_toNat, status_toNat]
  cases s.err with
  | none => cases s.fsm <;> rfl
  | some e => cases e <;> cases s.fsm <;> rfl

/-- Settles O15: START tests the exact product against PIXCAP, if PIXCAP is a number. -/
theorem startBeginsRequest : Obligations.StartBeginsRequest := by
  refine ⟨decode_op_start, fun s => ⟨fun hs hcap => execStart_accept hs ((fits_iff _ _).mpr hcap), fun _ hcap =>
    execStart_reject ?_, fun hs => execStart_reject fun hgo => hs hgo.1⟩⟩
  rintro ⟨-, hfit⟩
  obtain ⟨cap, hc, hlt⟩ := hcap
  exact absurd ((fits_iff _ _).mp hfit cap hc) (Nat.not_le.mpr hlt)

/-- What CLEAR leaves, by field; H and the counter of free bytes by name (R137). -/
theorem State.acknowledge_eq (s : State) : s.acknowledge =
    { s with fsm := .idle, err := none, phase := 0#3, ngrp := 0#64, plane := none, pix := [], h := s.acknowledge.h,
             freeCount := s.acknowledge.freeCount } := by
  unfold State.acknowledge
  split <;> rfl

/-- At rest there is nothing for CLEAR to change (R137). -/
theorem State.AtRest.acknowledge {s : State} (h : s.AtRest) : s.acknowledge = s := by
  cases s
  obtain ⟨rfl, rfl, rfl, rfl, rfl, rfl⟩ := h
  rfl

/-- Settles O29: the rejection in RUN, the fields CLEAR writes, and IDLE of the invariant, which is at rest. -/
theorem clearEndsRequest : Obligations.ClearEndsRequest := by
  refine ⟨decode_op_clear, fun s => ⟨execClear_reject, fun hs => ?_, fun hi hs => ?_⟩⟩
  · refine ⟨[], s.acknowledge.h, s.acknowledge.freeCount, (execClear_accept hs).trans ?_⟩
    rw [State.acknowledge_eq]
    rfl
  · refine (execClear_accept (by simp [hs])).trans ?_
    rw [(hi.atRest hs).acknowledge]
    rfl

end Sys2Proof.Machine
end

section
/-! PROOFS. The exceptions (60_exceptions.md): which error END reports, and what an error leaves. -/
namespace Sys2Proof.Machine

/-! ### The order of precedence -/

/-- The state reports the error `e`: ERR holds it, and the command was accepted with its code as the data (R158). -/
def State.Reports (t : State) (e : RequestError) : Prop :=
  t.err = some e ∧ t.rsp = some ⟨true, e.code.setWidth 64⟩

/-- Taking an error reports that error and no other (R155, R158). -/
theorem State.raise_reports_iff (s : State) (e f : RequestError) : (s.raise e).Reports f ↔ e = f := by
  constructor
  · rintro ⟨herr, -⟩
    exact Option.some.inj herr
  · rintro rfl
    exact ⟨rfl, rfl⟩

/-- No error has the code 0 (R151). -/
theorem RequestError.code_setWidth_ne_zero (e : RequestError) : e.code.setWidth 64 ≠ 0#64 := by
  cases e <;> decide

/-- A command that answers 0 reports no error, whatever ERR holds. -/
theorem State.accept_zero_not_reports (s : State) (e : RequestError) : ¬(s.accept 0#64).Reports e := by
  rintro ⟨-, hrsp⟩
  have hdata := congrArg Response.data (Option.some.inj hrsp)
  exact e.code_setWidth_ne_zero hdata.symm

/-- END in RUN that finds length, shape and depth in order and answers a next state reports no error (R116). -/
theorem execEndReq_not_reports {s t : State} (hs : s.fsm = .run) (hlen : ¬(s.phase ≠ 0#3 ∨ s.ngrp = 0#64))
    (hshape : ¬(s.width = 0#32 ∨ s.height = 0#32 ∨ s.pixelCount ≠ s.planeSize))
    (hd : 1 ≤ s.depth.toNat ∧ s.depth.toNat ≤ 10) (h : execEndReq s = .next t) (e : RequestError) : ¬t.Reports e := by
  rw [execEndReq_plane hs hlen hshape hd] at h
  split at h
  · cases h
  · cases h
    exact State.accept_zero_not_reports _ e

/-- The depth test of R116, by the value of its operand. -/
theorem depth_out_of_range_iff (d : BitVec 8) : (d = 0#8 ∨ 10 < d.toNat) ↔ (d.toNat = 0 ∨ 10 < d.toNat) := by
  rw [← BitVec.toNat_inj, BitVec.toNat_ofNat, Nat.zero_mod]

/-- END in RUN reports the first of the three errors whose test fails, and no other (R155). -/
theorem execEndReq_reports_iff {s t : State} (hs : s.fsm = .run) (h : execEndReq s = .next t) (e : RequestError) :
    t.Reports e ↔
      if s.phase ≠ 0#3 ∨ s.ngrp = 0#64 then .invalidBufferLength = e
      else if s.width = 0#32 ∨ s.height = 0#32 ∨ s.pixelCount ≠ s.planeSize then .shapeMismatch = e
      else if s.depth = 0#8 ∨ 10 < s.depth.toNat then .depthOutOfRange = e
      else False := by
  split_ifs with hlen hshape hdepth
  · rw [execEndReq_length hs hlen] at h
    cases h
    exact s.raise_reports_iff _ e
  · rw [execEndReq_shape hs hlen hshape] at h
    cases h
    exact s.raise_reports_iff _ e
  · rw [execEndReq_depth hs hlen hshape ((depth_out_of_range_iff _).mp hdepth)] at h
    cases h
    exact s.raise_reports_iff _ e
  · rw [depth_out_of_range_iff] at hdepth
    exact iff_of_false (execEndReq_not_reports hs hlen hshape (by omega) h e) id

/-- Settles O27: each clause is `execEndReq_reports_iff` at its error. -/
theorem errorPrecedence : Obligations.ErrorPrecedence := by
  intro s t hs h
  have hreports := execEndReq_reports_iff hs h
  refine ⟨(hreports .invalidBufferLength).trans ?_, (hreports .shapeMismatch).trans ?_,
    (hreports .depthOutOfRange).trans ?_⟩ <;>
  simp [State.pixelCount, State.planeSize]

/-! ### After an error -/

/-- Settles O42: the step keeps the invariant, under which a state outside DONE has no plane; RDPIX reads in DONE only. -/
theorem noPlaneAfterError : Obligations.NoPlaneAfterError := by
  intro s t hi h hf
  have hdone : t.fsm ≠ .done := by simp [hf]
  exact ⟨(stepKeepsInvariant s t hi h).plane_eq_none hdone, fun _ _ => execRdpix_reject fun hin => hdone hin.1⟩

end Sys2Proof.Machine
end

section
/-! PROOFS. Reset and hazards (70_reset_and_hazards.md): a reset event in any state. -/
namespace Sys2Proof.Machine

/-- With a reset presented next, a step takes it from the inputs and resets the core, whatever the state (R180). -/
theorem step_reset {s : State} {rest : List Input} (hin : s.input = .reset :: rest) :
    step s = .next (State.hardReset { s with input := rest }) := by
  simp [step, State.advance, hin]

/-- Settles O10: the step is `hardReset`, whose fields are those of R36 but for PIXCAP and the inputs, which it keeps. -/
theorem resetEventFromAnyState : Obligations.ResetEventFromAnyState := by
  intro s rest hin
  obtain ⟨hfsm, herr, hphase, hngrp, hwidth, hheight, hdepth, hpix, hplane⟩ := resetValues
  exact ⟨_, step_reset hin, hfsm, herr, hphase, hngrp, hwidth, hheight, hdepth, hpix, hplane,
    State.hardReset_rsp _, State.hardReset_cfg _, State.hardReset_input _⟩

end Sys2Proof.Machine
end
